-- ==== Sys2Proof/Word.lean ====
section
/-! DEFINITION. The word types of the SCSA Frame Codec (00_scope.md rule R9). -/

namespace Sys2Proof

/-- `byte` of R9: an unsigned integer in 0..255. -/
abbrev Byte := BitVec 8

/-- `u16` of R9. -/
abbrev Half := BitVec 16

/-- `u32` of R9. -/
abbrev Word := BitVec 32

end Sys2Proof
end

