-- ==== Sys2Proof/Config.lean ====
section
/-! DEFINITION. What an implementation fixes when it builds an instance (00_scope.md rules R7, R8). -/

namespace Sys2Proof

/-- The build-time parameters of one instance (R7). They are not architectural state (R24): no operation reads them
as a register or writes them. -/
structure Build where
  /-- `MAGIC`, the frame sentinel; on the wire it is `le32(MAGIC)` (R62). OPEN. -/
  magic : Word
  /-- `BUF_CAP`, the capacity of DEC's accumulation buffer in bytes; `none` is the spec's `∞`. OPEN. -/
  bufCap : Option Nat
  deriving DecidableEq, Repr

/-- The value of `MAGIC` in the instance that `State.reset` describes. The spec gives none (N1, D3), so nothing in Lean
can evaluate it. DESIGN CHOICE, log entry 1: safe. -/
opaque Config.magic : Word

/-- The value of `BUF_CAP` in the instance that `State.reset` describes: the default R7 and R58 give, `∞`.
DESIGN CHOICE, log entry 2: unsafe for a claim about the run from reset, safe for a claim about every state. -/
def Config.bufCap : Option Nat := none

/-- The build of the instance that `State.reset` describes. -/
def Config.build : Build := ⟨Config.magic, Config.bufCap⟩

end Sys2Proof
end

