-- ==== Sys2Proof/Machine/Operands.lean ====
section
/-! DEFINITION. Operand forms: byte order, byte slices, the fields of the op word and of the frame
(00_scope.md rules R9 to R11, 20_memory.md R40, 30_encoding.md R60, R61, R75). -/

namespace Sys2Proof.Machine

/-- `HDR` (R7, R61). -/
def headerBytes : Nat := 12

/-- `TRL` (R7, R61). -/
def trailerBytes : Nat := 4

/-- `VERSION_TX` (R7, R63, R134). -/
def versionTx : Byte := 0x01

/-- `CHUNK_SIZE` of R7, informative: no operation uses it. -/
def hostChunkSize : Nat := 1280

/-- `le16` (R11). -/
def le16 (v : Half) : List Byte := [v.extractLsb' 0 8, v.extractLsb' 8 8]

/-- `le32` (R11). -/
def le32 (v : Word) : List Byte :=
  [v.extractLsb' 0 8, v.extractLsb' 8 8, v.extractLsb' 16 8, v.extractLsb' 24 8]

/-- `s[i]` (R9). Past the end, where R9 gives no byte, it is 0; no operation reads there (log entry 12). -/
def byteAt (s : List Byte) (i : Nat) : Byte := s.getD i 0

/-- `s[i:j)` (R9). -/
def slice (s : List Byte) (i j : Nat) : List Byte := (s.take j).drop i

/-- `rd_le16(s, i)` (R11). -/
def rdLe16 (s : List Byte) (i : Nat) : Half := byteAt s (i + 1) ++ byteAt s i

/-- `rd_le32(s, i)` (R11). -/
def rdLe32 (s : List Byte) (i : Nat) : Word :=
  byteAt s (i + 3) ++ byteAt s (i + 2) ++ byteAt s (i + 1) ++ byteAt s i

/-- `MAGIC_BYTES` (R14, R41, R62). -/
def magicBytes (magic : Word) : List Byte := le32 magic

/-- The field `OP = w[31:24]` (R75). -/
def opField (w : Word) : Byte := w.extractLsb' 24 8

/-- The field `A = w[23:16]` (R75): ENC.FRAME's command byte. -/
def aField (w : Word) : Byte := w.extractLsb' 16 8

/-- The field `B = w[15:8]` (R75). -/
def bField (w : Word) : Byte := w.extractLsb' 8 8

/-- The field `C = w[7:0]` (R75): CRC.UPDATE's data byte. -/
def cField (w : Word) : Byte := w.extractLsb' 0 8

/-- `id = w[15:0]` of ENC.FRAME (R75). -/
def idField (w : Word) : Half := w.extractLsb' 0 16

/-- The op word with the fields `OP`, `A`, `B`, `C` (R75). -/
def opWord (op a b c : Byte) : Word := op ++ a ++ b ++ c

end Sys2Proof.Machine
end

