-- ==== Sys2Proof/Machine/State.lean ====
section
/-! DEFINITION. The state of one instance of the block, its results, and the reasons a step can stop
(10_state.md rules R20 to R28, 30_encoding.md R65, R79, R81, 60_exceptions.md R200 to R203, 70_reset_and_hazards.md R230). -/

namespace Sys2Proof.Machine

/-- The decoded command of a frame (R65). -/
inductive Command where
  | startUpgrade
  | transferChunk
  | endUpgrade
  | ack
  | nack
  /-- `Unknown(c)`: a legal command the source does not name (R64). -/
  | unknown (c : Byte)
  deriving DecidableEq, Repr

/-- The decoded frame record (R81). -/
structure Frame where
  /-- Frame byte 4, not checked (R63). -/
  version : Byte
  command : Command
  id : Half
  /-- The length field, the number of payload bytes (R67). -/
  length : Word
  payload : List Byte
  /-- `16 + length`: the bytes removed for this frame, not counting discards (R162). -/
  consumed : Nat
  deriving DecidableEq, Repr

/-- Why an operation was not accepted (R203). -/
inductive HoldReason where
  /-- DEC.PUSH under a finite `BUF_CAP` (R151). -/
  | bufFull
  deriving DecidableEq, Repr

/-- What an operation returns to the host (R79, R200). -/
inductive Result where
  /-- The operation completed and returns nothing else: CRC.INIT, CRC.UPDATE, DEC.PUSH, DEC.RESET. -/
  | completed
  /-- `r : u32` of CRC.FINAL and CRC.BLOCK. -/
  | crc (r : Word)
  /-- `out : bytes` of ENC.FRAME. -/
  | bytes (out : List Byte)
  /-- Status 0, FRAME, of DEC.STEP. -/
  | frame (f : Frame)
  /-- Status 1, NEED_MORE_DATA, of DEC.STEP. -/
  | needMoreData
  /-- The operation was held: not accepted, nothing changed, the host may retry (R200, R203). -/
  | held (why : HoldReason)
  deriving DecidableEq, Repr

/-- The block raises no exceptions and takes no traps (R200, R209): there is no fault. -/
inductive Fault where
  deriving DecidableEq, Repr

/-- Why an operation has no meaning (R202). A refusal changes no state and marks the whole run. -/
inductive Refusal where
  /-- Raised by `exec` for an instruction that has no meaning yet; safe. -/
  | notModelled (mnemonic : String)
  /-- ILLEGAL_OP, raised by `step` for an op word with an unknown `OP` or a nonzero must-be-zero field (R77); it
  records the op word; safe. -/
  | illegalOp (w : Word)
  /-- PAYLOAD_TOO_LONG, raised by ENC.FRAME for a payload of `2^32` bytes or more (R132), which no issued operation
  can carry; it records the length; safe. -/
  | payloadTooLong (n : Nat)
  deriving DecidableEq, Repr

/-- One instance of the block. `crcState` and `buf` are its whole architectural state (R20); `build` holds its
build-time parameters (R8); `issued` and `results` are the host's side of the operation interface (R74, R79). -/
structure State where
  /-- `crc_state`: the running CRC remainder (R21). -/
  crcState : Word
  /-- `buf`: DEC's accumulation buffer, oldest byte first (R22). -/
  buf : List Byte
  /-- `MAGIC` and `BUF_CAP`; no operation writes them (R24). -/
  build : Build
  /-- The model's own: the operations issued and not yet taken, as bytes, oldest first (log entry 3). -/
  issued : List Byte
  /-- The model's own: what the operations returned, oldest first (log entry 6). -/
  results : List Result
  deriving DecidableEq, Repr

/-- A newly created instance with the given build parameters (R230, R231). -/
def State.resetOf (b : Build) : State :=
  { crcState := 0xFFFFFFFF, buf := [], build := b, issued := [], results := [] }

/-- The machine right after reset (R230): the instance whose `MAGIC` is the opaque `Config.magic` and whose `BUF_CAP`
is the default `∞`. -/
def State.reset : State := State.resetOf Config.build

end Sys2Proof.Machine
end

