-- ==== Sys2Proof/Machine/Ops.lean ====
section
/-! DEFINITION. The named operations on the state: the primitives of 00_scope.md rules R12 and R13. Taking an exception
and returning from one have no operation here: the block has neither (60_exceptions.md rules R200, R209). -/

namespace Sys2Proof.Machine

/-- `crc_state <- v` (R12). -/
def State.writeCrc (s : State) (v : Word) : State := { s with crcState := v }

/-- `BufRead(i, n)` (R12): `buf[i:i+n)`. -/
def State.bufRead (s : State) (i n : Nat) : List Byte := slice s.buf i (i + n)

/-- `BufAppend(d)` (R12): `buf <- buf ++ d`. -/
def State.bufAppend (s : State) (d : List Byte) : State := { s with buf := s.buf ++ d }

/-- `BufDrop(n)` (R12): `buf <- buf[n:)`. -/
def State.bufDrop (s : State) (n : Nat) : State := { s with buf := s.buf.drop n }

/-- `n` more bytes fit in `buf` (R150, R151). -/
def State.hasRoom (s : State) (n : Nat) : Bool :=
  match s.build.bufCap with
  | none => true
  | some cap => decide (s.buf.length + n ≤ cap)

/-- `return R` (R13). -/
def State.respond (s : State) (r : Result) : State := { s with results := s.results ++ [r] }

/-- `hold <Reason>` (R13): no state changes, and the host is told. The attempt is over; the host must issue the
operation again (DESIGN CHOICE, log entry 7). -/
def State.hold (s : State) (why : HoldReason) : State := s.respond (.held why)

/-- The issued operation is taken; `rest` is what the host has issued after it (R52). -/
def State.takeIssued (s : State) (rest : List Byte) : State := { s with issued := rest }

end Sys2Proof.Machine
end

