-- ==== Sys2Proof/Machine/Frames.lean ====
section
/-! DEFINITION. What DEC finds at the front of `buf`, and the six frame command-byte rows: the surfacing of an accepted
frame (30_encoding.md rules R64, R65, R73, R81, 42_decoder.md R154 to R163, R166). -/

namespace Sys2Proof.Machine

/-- `decode_cmd(c)` (R65). -/
def decodeCmd (c : Byte) : Command :=
  if c = 0x01 then .startUpgrade
  else if c = 0x02 then .transferChunk
  else if c = 0x03 then .endUpgrade
  else if c = 0x04 then .ack
  else if c = 0x05 then .nack
  else .unknown c

/-- `raw(cmd)` (R65). -/
def rawCmd : Command → Byte
  | .startUpgrade => 0x01
  | .transferChunk => 0x02
  | .endUpgrade => 0x03
  | .ack => 0x04
  | .nack => 0x05
  | .unknown c => c

/-- `total = 16 + L` with `L = rd_le32(buf, 8)`, on natural numbers, so that it never wraps (R157). -/
def frameTotal (buf : List Byte) : Nat := headerBytes + (rdLe32 buf 8).toNat + trailerBytes

/-- The magic test of R154: the bytes there, up to four, are the first bytes of `MAGIC_BYTES`. -/
def magicMatches (magic : Word) (buf : List Byte) : Bool :=
  buf.take 4 == (magicBytes magic).take (min 4 buf.length)

/-- The checksum test of R159. -/
def checksumMatches (buf : List Byte) : Bool :=
  crc32 (buf.take (frameTotal buf - trailerBytes)) == rdLe32 buf (frameTotal buf - trailerBytes)

/-- What one pass of the loop of R153 decides about `buf`. -/
inductive Verdict where
  /-- `buf[0]` is discarded and the scan goes on: no magic (R154), or a spurious one (R160). -/
  | discard
  /-- NEED_MORE_DATA (R154, R155, R158). -/
  | wait
  /-- A verified frame starts at `buf[0]` (R73, R161). -/
  | accept
  deriving DecidableEq, Repr

/-- One pass of the loop of R153, in the check order of R166. -/
def judge (magic : Word) (buf : List Byte) : Verdict :=
  if magicMatches magic buf then
    if buf.length < 4 then .wait
    else if buf.length < headerBytes then .wait
    else if buf.length < frameTotal buf then .wait
    else if checksumMatches buf then .accept
    else .discard
  else .discard

/-- The frame record of R153 and R161, with the given command. -/
def frameRecord (cmd : Command) (buf : List Byte) : Frame :=
  { version := byteAt buf 4
    command := cmd
    id := rdLe16 buf 6
    length := rdLe32 buf 8
    payload := slice buf 12 (12 + (rdLe32 buf 8).toNat)
    consumed := frameTotal buf }

/-- Returns the frame at the front of `buf` with the given command and removes its bytes (R161, R162). -/
def State.surface (s : State) (cmd : Command) : State :=
  (s.bufDrop (frameTotal s.buf)).respond (.frame (frameRecord cmd s.buf))

/-- The meaning of a command-byte row: a verified frame at the front of `buf` whose byte 5 is `code` is surfaced with
command `cmd` (R65, R161). A command byte anywhere else has no effect (DEDUCED, log entry 8). -/
def State.commandRow (s : State) (code : Byte) (cmd : Command) : State :=
  if judge s.build.magic s.buf = .accept ∧ byteAt s.buf 5 = code then s.surface cmd else s

/-- FRAME.StartUpgrade. -/
def rowStartUpgrade (s : State) : State := s.commandRow 0x01 .startUpgrade

/-- FRAME.TransferChunk. -/
def rowTransferChunk (s : State) : State := s.commandRow 0x02 .transferChunk

/-- FRAME.EndUpgrade. -/
def rowEndUpgrade (s : State) : State := s.commandRow 0x03 .endUpgrade

/-- FRAME.Ack. -/
def rowAck (s : State) : State := s.commandRow 0x04 .ack

/-- FRAME.Nack. -/
def rowNack (s : State) : State := s.commandRow 0x05 .nack

/-- FRAME.Unknown, the catch-all row of the bytes R64 does not name; of a named byte it says nothing. -/
def rowUnknown (c : Byte) (s : State) : State :=
  if decodeCmd c = .unknown c then s.commandRow c (.unknown c) else s

/-- The row of the frame's command byte is run (R161). -/
def rowOf (c : Byte) (s : State) : State :=
  if c = 0x01 then rowStartUpgrade s
  else if c = 0x02 then rowTransferChunk s
  else if c = 0x03 then rowEndUpgrade s
  else if c = 0x04 then rowAck s
  else if c = 0x05 then rowNack s
  else rowUnknown c s

/-- FRAME.StartUpgrade (R65, R161). -/
def execFrameStartUpgrade (s : State) : Host.Outcome State Fault Refusal := .next (rowStartUpgrade s)

/-- FRAME.TransferChunk (R65, R161). -/
def execFrameTransferChunk (s : State) : Host.Outcome State Fault Refusal := .next (rowTransferChunk s)

/-- FRAME.EndUpgrade (R65, R161). -/
def execFrameEndUpgrade (s : State) : Host.Outcome State Fault Refusal := .next (rowEndUpgrade s)

/-- FRAME.Ack (R65, R161). -/
def execFrameAck (s : State) : Host.Outcome State Fault Refusal := .next (rowAck s)

/-- FRAME.Nack (R65, R161). -/
def execFrameNack (s : State) : Host.Outcome State Fault Refusal := .next (rowNack s)

/-- FRAME.Unknown (R65, R161). -/
def execFrameUnknown (c : Byte) (s : State) : Host.Outcome State Fault Refusal := .next (rowUnknown c s)

end Sys2Proof.Machine
end

