-- ==== Sys2Proof/Machine/Dec.lean ====
section
/-! DEFINITION. DEC: the frame decoder with stream resynchronization (42_decoder.md rules R150 to R166). -/

namespace Sys2Proof.Machine

/-- The loop of R153 as far as it discards: each pass that discards drops exactly one byte and rescans (R154, R160).
What is left is where the loop returns. -/
def scan (magic : Word) : List Byte → List Byte
  | [] => []
  | b :: t => if judge magic (b :: t) = .discard then scan magic t else b :: t

/-- `buf` after the discards of a DEC.STEP; they are permanent (R164). -/
def State.afterDiscards (s : State) : State := { s with buf := scan s.build.magic s.buf }

/-- Where the scan ends: a verified frame is surfaced by the row of its command byte (R161), anything else is
NEED_MORE_DATA (R154, R155, R158). -/
def State.settle (s : State) : State :=
  if judge s.build.magic s.buf = .accept then rowOf (byteAt s.buf 5) s else s.respond .needMoreData

/-- DEC.PUSH (R150): completes whole or is held whole (R151). -/
def execDecPush (d : List Byte) (s : State) : Host.Outcome State Fault Refusal :=
  .next (if s.hasRoom d.length then (s.bufAppend d).respond .completed else s.hold .bufFull)

/-- DEC.STEP (R153). -/
def execDecStep (s : State) : Host.Outcome State Fault Refusal := .next s.afterDiscards.settle

/-- DEC.RESET (R152). -/
def execDecReset (s : State) : Host.Outcome State Fault Refusal :=
  .next ((s.bufDrop s.buf.length).respond .completed)

end Sys2Proof.Machine
end

