-- ==== Sys2Proof/Machine/Enc.lean ====
section
/-! DEFINITION. ENC: the frame encoder (41_encoder.md rules R130 to R134, 30_encoding.md R60). -/

namespace Sys2Proof.Machine

/-- The bytes before the trailer of a frame with the given version (R60, R130). -/
def frameBody (magic : Word) (version cmd : Byte) (id : Half) (payload : List Byte) : List Byte :=
  magicBytes magic ++ [version] ++ [cmd] ++ le16 id ++ le32 (BitVec.ofNat 32 payload.length) ++ payload

/-- A body and its trailer, `le32(crc32(body))` (R69). -/
def sealFrame (body : List Byte) : List Byte := body ++ le32 (crc32 body)

/-- The frame that ENC makes (R130): its version is always `0x01` (R134), and nothing about the command or the payload
is checked (R133). -/
def encodeFrame (magic : Word) (cmd : Byte) (id : Half) (payload : List Byte) : List Byte :=
  sealFrame (frameBody magic versionTx cmd id payload)

/-- ENC.FRAME (R130). It writes no state. A payload that does not fit the length field is refused, never truncated
(R132). -/
def execEncFrame (cmd : Byte) (id : Half) (payload : List Byte) (s : State) : Host.Outcome State Fault Refusal :=
  if payload.length < 2 ^ 32 then .next (s.respond (.bytes (encodeFrame s.build.magic cmd id payload)))
  else .refused (.payloadTooLong payload.length)

end Sys2Proof.Machine
end

