-- ==== Sys2Proof/Syntax.lean ====
section
/-! DEFINITION. The rows of spec/opcode_table.json: the eight operations of 30_encoding.md rule R76 and the six frame
command-byte rows of rules R64 and R65. -/

namespace Sys2Proof

/-- One constructor per row of the opcode table. -/
inductive Instr where
  /-- CRC.INIT (R105). -/
  | crcInit
  /-- CRC.UPDATE b (R106). -/
  | crcUpdate (b : Byte)
  /-- CRC.FINAL (R107). -/
  | crcFinal
  /-- CRC.BLOCK with its data operand (R108). -/
  | crcBlock (d : List Byte)
  /-- ENC.FRAME cmd, id with its data operand, the payload (R130). -/
  | encFrame (cmd : Byte) (id : Half) (payload : List Byte)
  /-- DEC.PUSH with its data operand (R150). -/
  | decPush (d : List Byte)
  /-- DEC.STEP (R153). -/
  | decStep
  /-- DEC.RESET (R152). -/
  | decReset
  /-- Frame byte 5 is 0x01 (R64, R65). -/
  | frameStartUpgrade
  /-- Frame byte 5 is 0x02 (R64, R65). -/
  | frameTransferChunk
  /-- Frame byte 5 is 0x03 (R64, R65). -/
  | frameEndUpgrade
  /-- Frame byte 5 is 0x04 (R64, R65). -/
  | frameAck
  /-- Frame byte 5 is 0x05 (R64, R65). -/
  | frameNack
  /-- Frame byte 5 is `c`, any byte but 0x01 to 0x05 (R64, R65). -/
  | frameUnknown (c : Byte)
  deriving DecidableEq, Repr

end Sys2Proof
end

