-- ==== Sys2Proof/Machine/Dispatch.lean ====
section
/-! DEFINITION. One arm per row of spec/opcode_table.json. -/

namespace Sys2Proof.Machine

def exec (i : Instr) (s : State) : Host.Outcome State Fault Refusal :=
  match i with
  | .crcInit => Sys2Proof.Machine.execCrcInit s
  | .crcUpdate b => Sys2Proof.Machine.execCrcUpdate b s
  | .crcFinal => Sys2Proof.Machine.execCrcFinal s
  | .crcBlock d => Sys2Proof.Machine.execCrcBlock d s
  | .encFrame cmd id payload => Sys2Proof.Machine.execEncFrame cmd id payload s
  | .decPush d => Sys2Proof.Machine.execDecPush d s
  | .decStep => Sys2Proof.Machine.execDecStep s
  | .decReset => Sys2Proof.Machine.execDecReset s
  | .frameStartUpgrade => Sys2Proof.Machine.execFrameStartUpgrade s
  | .frameTransferChunk => Sys2Proof.Machine.execFrameTransferChunk s
  | .frameEndUpgrade => Sys2Proof.Machine.execFrameEndUpgrade s
  | .frameAck => Sys2Proof.Machine.execFrameAck s
  | .frameNack => Sys2Proof.Machine.execFrameNack s
  | .frameUnknown c => Sys2Proof.Machine.execFrameUnknown c s

end Sys2Proof.Machine
end

