-- ==== Sys2Proof/WellFormed.lean ====
section
/-! DEFINITION. Which instructions have an encoding (30_encoding.md rules R64, R74). -/

namespace Sys2Proof

/-- A data operand's length is a `u32` (R74). -/
def dataFits (d : List Byte) : Bool := decide (d.length < 2 ^ 32)

/-- A command byte that R64 does not name. -/
def isUnknownCommand (c : Byte) : Bool := decide (c = 0x00 ∨ 0x06 ≤ c)

/-- The instruction is one the encodings of the spec can express. -/
def wellFormed : Instr → Bool
  | .crcInit => true
  | .crcUpdate _ => true
  | .crcFinal => true
  | .crcBlock d => dataFits d
  | .encFrame _ _ payload => dataFits payload
  | .decPush d => dataFits d
  | .decStep => true
  | .decReset => true
  | .frameStartUpgrade => true
  | .frameTransferChunk => true
  | .frameEndUpgrade => true
  | .frameAck => true
  | .frameNack => true
  | .frameUnknown c => isUnknownCommand c

/-- The rows that are operations of the interface (R76); the others are command bytes of a wire frame, "not an
operation". -/
def isOperation : Instr → Bool
  | .crcInit => true
  | .crcUpdate _ => true
  | .crcFinal => true
  | .crcBlock _ => true
  | .encFrame _ _ _ => true
  | .decPush _ => true
  | .decStep => true
  | .decReset => true
  | .frameStartUpgrade => false
  | .frameTransferChunk => false
  | .frameEndUpgrade => false
  | .frameAck => false
  | .frameNack => false
  | .frameUnknown _ => false

end Sys2Proof
end

