-- ==== Sys2Proof/Decode.lean ====
section
/-! DEFINITION. The decoder of the operation interface and of the frame command byte, and the encoder written from the
same tables (30_encoding.md rules R64, R65, R74 to R78, R84). -/

namespace Sys2Proof

open Sys2Proof.Machine

/-- What the decoder reads from the bytes a host has issued. -/
inductive Decoded where
  /-- An operation, and the bytes after it. -/
  | ok (i : Instr) (rest : List Byte)
  /-- The op word is one R77 refuses. -/
  | illegalOp (w : Word)
  /-- The bytes end before the operation does (R78): it is not issued yet. -/
  | incomplete
  deriving DecidableEq, Repr

/-- A data operand: a `u32` length `n`, then `n` bytes (R74). `none` while it is not all there. -/
def takeData (bs : List Byte) : Option (List Byte × List Byte) :=
  match bs with
  | n0 :: n1 :: n2 :: n3 :: rest =>
    let n := (rdLe32 [n0, n1, n2, n3] 0).toNat
    if n ≤ rest.length then some (rest.take n, rest.drop n) else none
  | _ => none

/-- An operation with a data operand (R78). -/
def withData (k : List Byte → Instr) (bs : List Byte) : Decoded :=
  match takeData bs with
  | some (d, rest) => .ok (k d) rest
  | none => .incomplete

/-- The fields `A`, `B` and `C` are all zero (R75, "must be 0"). -/
def noFields (w : Word) : Bool := aField w == 0 && bField w == 0 && cField w == 0

/-- Selects by `OP`, then checks the must-be-zero fields (R76, R77). `rest` is what follows the op word. -/
def decodeOp (w : Word) (rest : List Byte) : Decoded :=
  if opField w = 0x01 then
    if noFields w then .ok .crcInit rest else .illegalOp w
  else if opField w = 0x02 then
    if aField w == 0 && bField w == 0 then .ok (.crcUpdate (cField w)) rest else .illegalOp w
  else if opField w = 0x03 then
    if noFields w then .ok .crcFinal rest else .illegalOp w
  else if opField w = 0x04 then
    if noFields w then withData .crcBlock rest else .illegalOp w
  else if opField w = 0x10 then
    withData (.encFrame (aField w) (idField w)) rest
  else if opField w = 0x20 then
    if noFields w then withData .decPush rest else .illegalOp w
  else if opField w = 0x21 then
    if noFields w then .ok .decStep rest else .illegalOp w
  else if opField w = 0x22 then
    if noFields w then .ok .decReset rest else .illegalOp w
  else .illegalOp w

/-- The operation at the front of the issued bytes. Op words and operand lengths stand little-endian (DESIGN CHOICE,
log entry 3). -/
def decode (bs : List Byte) : Decoded :=
  match bs with
  | w0 :: w1 :: w2 :: w3 :: rest => decodeOp (rdLe32 [w0, w1, w2, w3] 0) rest
  | _ => .incomplete

/-- The row of the command byte of a frame (R64). Every byte has one (R65, R71). -/
def decodeCommandByte (c : Byte) : Instr :=
  if c = 0x01 then .frameStartUpgrade
  else if c = 0x02 then .frameTransferChunk
  else if c = 0x03 then .frameEndUpgrade
  else if c = 0x04 then .frameAck
  else if c = 0x05 then .frameNack
  else .frameUnknown c

/-- The instruction whose bits are `w`, numbered as spec/opcode_table.json numbers them: 8 bits for a command byte,
32 for an op word, whose data operand is then the length 0 and no bytes. -/
def decodeTableWord (nbits w : Nat) : Option Instr :=
  if nbits = 8 then some (decodeCommandByte (BitVec.ofNat 8 w))
  else if nbits = 32 then
    match decode (le32 (BitVec.ofNat 32 w) ++ le32 0) with
    | .ok i _ => some i
    | .illegalOp _ => none
    | .incomplete => none
  else none

/-- A data operand as issued (R74). -/
def encodeData (d : List Byte) : List Byte := le32 (BitVec.ofNat 32 d.length) ++ d

/-- The bytes of an instruction: for an operation its op word (R84) and data operand, for a command-byte row that
byte of the frame (R64). -/
def encode : Instr → List Byte
  | .crcInit => le32 (opWord 0x01 0 0 0)
  | .crcUpdate b => le32 (opWord 0x02 0 0 b)
  | .crcFinal => le32 (opWord 0x03 0 0 0)
  | .crcBlock d => le32 (opWord 0x04 0 0 0) ++ encodeData d
  | .encFrame cmd id payload =>
    le32 (opWord 0x10 cmd (id.extractLsb' 8 8) (id.extractLsb' 0 8)) ++ encodeData payload
  | .decPush d => le32 (opWord 0x20 0 0 0) ++ encodeData d
  | .decStep => le32 (opWord 0x21 0 0 0)
  | .decReset => le32 (opWord 0x22 0 0 0)
  | .frameStartUpgrade => [0x01]
  | .frameTransferChunk => [0x02]
  | .frameEndUpgrade => [0x03]
  | .frameAck => [0x04]
  | .frameNack => [0x05]
  | .frameUnknown c => [c]

end Sys2Proof
end

