-- ==== Sys2Proof/Machine/Fetch.lean ====
section
/-! DEFINITION. Where the next operation comes from: the bytes the host has issued (30_encoding.md rules R74, R78,
10_state.md R26). Also how one row of the opcode table is put there. -/

namespace Sys2Proof.Machine

/-- The operation the host has issued next. The block fetches from no memory (R26, R57). -/
def fetch (s : State) : Decoded := decode s.issued

/-- The op word's operation carries a data operand (R78). -/
def takesData (w : Word) : Bool := opField w == 0x04 || opField w == 0x10 || opField w == 0x20

/-- The host issues the op word `w`, with an empty data operand where it takes one, ahead of what it issued before. -/
def State.issueOpWord (s : State) (w : Word) : State :=
  { s with issued := le32 w ++ (if takesData w then le32 0 else []) ++ s.issued }

/-- A command byte reaches DEC as byte 5 of a frame: the empty frame of that command with id 0 stands at the front of
`buf`, and the host issues DEC.STEP (log entry 9). -/
def State.offerCommandByte (s : State) (c : Byte) : State :=
  { s with
    buf := encodeFrame s.build.magic c 0 [] ++ s.buf
    issued := encode .decStep ++ s.issued }

end Sys2Proof.Machine
end

