-- ==== Sys2Proof/Machine/Step.lean ====
section
/-! DEFINITION. One step: the block performs the operation the host has issued next (20_memory.md rules R48, R52). -/

namespace Sys2Proof.Machine

/-- Takes the next issued operation and runs it; refuses an illegal op word (R77); while no whole operation is issued
the block waits and nothing changes (R232; log entry 4). -/
def step (s : State) : Host.Outcome State Fault Refusal :=
  match fetch s with
  | .ok i rest => exec i (s.takeIssued rest)
  | .illegalOp w => .refused (.illegalOp w)
  | .incomplete => .next s

/-- `s` with the row whose `nbits` bits are `w` placed so that the next `step` runs it. -/
def State.withFetchWord (s : State) (nbits w : Nat) : State :=
  if nbits = 8 then s.offerCommandByte (BitVec.ofNat 8 w) else s.issueOpWord (BitVec.ofNat 32 w)

end Sys2Proof.Machine
end

