-- ==== Sys2Proof/Machine/Pseudo.lean ====
section
/-! DEFINITION. The pseudo-operations and the host's draining loop (30_encoding.md rule R83). -/

namespace Sys2Proof.Machine

/-- ENC.START id, size. -/
def pseudoEncStart (id : Half) (size : Word) : Instr := .encFrame 0x01 id (le32 size)

/-- ENC.CHUNK id, bytes. -/
def pseudoEncChunk (id : Half) (d : List Byte) : Instr := .encFrame 0x02 id d

/-- ENC.END id. -/
def pseudoEncEnd (id : Half) : Instr := .encFrame 0x03 id []

/-- ENC.ACK id. -/
def pseudoEncAck (id : Half) : Instr := .encFrame 0x04 id []

/-- ENC.NACK id. -/
def pseudoEncNack (id : Half) : Instr := .encFrame 0x05 id []

/-- CRC.OF bytes. -/
def pseudoCrcOf (d : List Byte) : Instr := .crcBlock d

/-- At most `fuel` passes of DEC.DRAIN, the host's loop: DEC.STEP until a result is not a FRAME. It returns the frames in
order and the state the loop leaves. It is not an operation. -/
def drainWithin : Nat → State → List Frame × State
  | 0, s => ([], s)
  | fuel + 1, s =>
    match exec .decStep s with
    | .next t =>
      match t.results.getLast? with
      | some (.frame f) => (f :: (drainWithin fuel t).1, (drainWithin fuel t).2)
      | _ => ([], t)
    | .fault _ => ([], s)
    | .refused _ => ([], s)

/-- DEC.DRAIN. Every FRAME removes at least one byte, so `|buf| + 1` passes reach NEED_MORE_DATA. -/
def drain (s : State) : List Frame × State := drainWithin (s.buf.length + 1) s

end Sys2Proof.Machine
end

