-- ==== Sys2Proof/Safety.lean ====
section
/-! DEFINITION. The terms in which claims speak: runs of operations, the capacity invariant, what stands at the front of
`buf`, illegal op words, units, frames as data. Conditions are written from the rules, not from the operations. -/

namespace Sys2Proof.Machine

/-- The host issues the operations one after another, each seeing every earlier effect (R52). -/
def execAll : List Instr → State → Host.Outcome State Fault Refusal
  | [], s => .next s
  | i :: is, s =>
    match exec i s with
    | .next t => execAll is t
    | .fault f => .fault f
    | .refused r => .refused r

/-- `|buf| <= BUF_CAP` (R58). -/
def State.withinCap (s : State) : Bool :=
  match s.build.bufCap with
  | none => true
  | some cap => decide (s.buf.length ≤ cap)

/-- `n` more bytes keep `buf` within `BUF_CAP` (R151). -/
abbrev State.Fits (s : State) (n : Nat) : Prop := ∀ cap, s.build.bufCap = some cap → s.buf.length + n ≤ cap

/-- `MAGIC_BYTES` occurs at position `j` of `bs`. -/
def occursAt (magic : Word) (bs : List Byte) (j : Nat) : Bool := slice bs j (j + 4) == le32 magic

/-- The bytes at the front cannot begin a magic: `buf[0:k) != MAGIC_BYTES[0:k)` with `k = min(4, |buf|)` (R154). -/
abbrev MagicMiss (magic : Word) (buf : List Byte) : Prop :=
  buf.take (min 4 buf.length) ≠ (le32 magic).take (min 4 buf.length)

/-- R73: a complete frame with a matching checksum starts at the front. -/
abbrev FrameAtFront (magic : Word) (buf : List Byte) : Prop :=
  buf.take 4 = le32 magic ∧ 16 + (rdLe32 buf 8).toNat ≤ buf.length ∧
    crc32 (buf.take (12 + (rdLe32 buf 8).toNat)) = rdLe32 buf (12 + (rdLe32 buf 8).toNat)

/-- R160: a magic starts at the front, its frame is complete, and the checksum does not match. -/
abbrev SpuriousAtFront (magic : Word) (buf : List Byte) : Prop :=
  buf.take 4 = le32 magic ∧ 16 + (rdLe32 buf 8).toNat ≤ buf.length ∧
    crc32 (buf.take (12 + (rdLe32 buf 8).toNat)) ≠ rdLe32 buf (12 + (rdLe32 buf 8).toNat)

/-- R34 (a): a proper prefix of the magic, possibly empty. -/
abbrev ResidueMagic (magic : Word) (buf : List Byte) : Prop :=
  buf.length < 4 ∧ buf = (le32 magic).take buf.length

/-- R34 (b): the magic and an incomplete header. -/
abbrev ResidueHeader (magic : Word) (buf : List Byte) : Prop :=
  buf.take 4 = le32 magic ∧ buf.length < 12

/-- R34 (c): the magic, a header and an incomplete frame. -/
abbrev ResidueFrame (magic : Word) (buf : List Byte) : Prop :=
  buf.take 4 = le32 magic ∧ 12 ≤ buf.length ∧ buf.length < 16 + (rdLe32 buf 8).toNat

/-- The frame record that the bytes at the front of `buf` spell (R81). -/
def frameOf (buf : List Byte) : Frame :=
  { version := byteAt buf 4
    command := decodeCmd (byteAt buf 5)
    id := rdLe16 buf 6
    length := rdLe32 buf 8
    payload := slice buf 12 (12 + (rdLe32 buf 8).toNat)
    consumed := 16 + (rdLe32 buf 8).toNat }

/-- A frame as the host gives it to ENC.FRAME: command, id and payload. -/
structure Message where
  cmd : Byte
  id : Half
  payload : List Byte
  deriving DecidableEq, Repr

/-- The payload fits the length field (R132). -/
abbrev Message.Fits (m : Message) : Prop := m.payload.length < 2 ^ 32

/-- The bytes of the message's frame, field by field (R60, R130). -/
def Message.body (magic : Word) (m : Message) : List Byte :=
  le32 magic ++ [0x01] ++ [m.cmd] ++ le16 m.id ++ le32 (BitVec.ofNat 32 m.payload.length) ++ m.payload

/-- The message's whole frame (R60, R69). -/
def Message.wire (magic : Word) (m : Message) : List Byte := m.body magic ++ le32 (crc32 (m.body magic))

/-- The record DEC returns for the message's frame (R170). -/
def Message.received (m : Message) : Frame :=
  { version := 0x01
    command := decodeCmd m.cmd
    id := m.id
    length := BitVec.ofNat 32 m.payload.length
    payload := m.payload
    consumed := 16 + m.payload.length }

/-- The frames of the messages, abutting (R46). -/
def wireAll (magic : Word) (ms : List Message) : List Byte := ms.flatMap (Message.wire magic)

/-- `f` with bit `b` of byte `k` inverted. -/
def flipBit (f : List Byte) (k b : Nat) : List Byte := f.set k (byteAt f k ^^^ (1#8 <<< b))

/-- R77's two causes, read off the tables of R75 and R76. -/
abbrev IllegalOpWord (w : Word) : Prop :=
  w.extractLsb' 24 8 ∉ ([0x01, 0x02, 0x03, 0x04, 0x10, 0x20, 0x21, 0x22] : List Byte) ∨
  (w.extractLsb' 24 8 ∈ ([0x01, 0x03, 0x04, 0x20, 0x21, 0x22] : List Byte) ∧ w.extractLsb' 0 24 ≠ 0) ∨
  (w.extractLsb' 24 8 = 0x02 ∧ w.extractLsb' 8 16 ≠ 0)

/-- The three units (R1). -/
inductive BlockUnit where
  | crcu
  | enc
  | dec
  deriving DecidableEq, Repr

/-- The unit of a row (R76); the command-byte rows are DEC's. -/
def unitOf : Instr → BlockUnit
  | .crcInit => .crcu
  | .crcUpdate _ => .crcu
  | .crcFinal => .crcu
  | .crcBlock _ => .crcu
  | .encFrame _ _ _ => .enc
  | .decPush _ => .dec
  | .decStep => .dec
  | .decReset => .dec
  | .frameStartUpgrade => .dec
  | .frameTransferChunk => .dec
  | .frameEndUpgrade => .dec
  | .frameAck => .dec
  | .frameNack => .dec
  | .frameUnknown _ => .dec

/-- R244: the buffer is finite and the header at `buf[0]` declares a frame longer than it. -/
abbrev State.Deadlocked (s : State) : Prop :=
  s.buf.take 4 = le32 s.build.magic ∧ 12 ≤ s.buf.length ∧
    ∃ cap, s.build.bufCap = some cap ∧ s.buf.length ≤ cap ∧ cap < 16 + (rdLe32 s.buf 8).toNat

end Sys2Proof.Machine
end

