-- ==== Sys2Proof/Certificates/Slice0/Obligations.lean ====
section
/-! DEFINITION. The statements for the provers, from the spec's numbered rules. -/

open Sys2Proof Sys2Proof.Machine

/-! ### Reset and the operation interface -/

/-- R230: what reset leaves, for every build. -/
def Obligations.ResetGivesTheStatedState : Prop :=
  (∀ b, (State.resetOf b).crcState = 0xFFFFFFFF ∧ (State.resetOf b).buf = [] ∧ (State.resetOf b).build = b) ∧
    State.reset.crcState = 0xFFFFFFFF ∧ State.reset.buf = []

/-- R231: DEC.RESET and CRC.INIT together equal a reset. -/
def Obligations.ResetAndInitEqualAReset : Prop :=
  ∀ s : State, execAll [.decReset, .crcInit] s =
    .next { State.resetOf s.build with
      issued := s.issued, results := s.results ++ [.completed, .completed] }

/-- R52, R57: the next operation is whatever the host issued next. The byte layout `decode` reads is log entry 3's. -/
def Obligations.StepRunsTheDecodedOperation : Prop :=
  ∀ (s : State) (i : Instr) (rest : List Byte),
    decode s.issued = .ok i rest → step s = exec i { s with issued := rest }

/-- R77: exactly the op words with an unknown OP or a nonzero must-be-zero field are refused. The model's choices: the op
word stands little-endian at the front of `issued` (log entry 3), and it is refused before any operand is there (log
entry 4). -/
def Obligations.StepRefusesExactlyIllegalOpWords : Prop :=
  ∀ (s : State) (w : Word) (rest : List Byte), s.issued = le32 w ++ rest →
    (IllegalOpWord w → step s = .refused (.illegalOp w)) ∧
      (¬ IllegalOpWord w → ∀ v, step s ≠ .refused (.illegalOp v))

/-- After R200, R202, R132: a step answers a next state, or refuses an illegal op word; it never faults and never refuses
otherwise. The model's choices: the next state may be the wait on a partly issued operation (log entry 4) or a held
DEC.PUSH (log entry 7), and the refused word is read in the layout of log entry 3. -/
def Obligations.StepCompletesUnlessOpWordIllegal : Prop :=
  ∀ s : State, (∃ t, step s = .next t) ∨
    ∃ w rest, s.issued = le32 w ++ rest ∧ IllegalOpWord w ∧ step s = .refused (.illegalOp w)

/-- R232: the block waits for the host. That a partly issued operation also waits is the model's choice, log entry 4. -/
def Obligations.StepWaitsForAWholeOperation : Prop :=
  (∀ s : State, s.issued = [] → step s = .next s) ∧
    ∀ s : State, decode s.issued = .incomplete → step s = .next s

/-! ### Encodings -/

/-- R75 to R78: every operation the encoding can express is read back, with every operand. The byte layout is log
entry 3's. -/
def Obligations.DecodeOfEncodedOperation : Prop :=
  ∀ (i : Instr) (rest : List Byte), isOperation i = true → wellFormed i = true →
    decode (encode i ++ rest) = .ok i rest

/-- R75 to R78: what decodes is well formed and has no other encoding. The byte layout is log entry 3's. -/
def Obligations.DecodedOperationReencodes : Prop :=
  ∀ (bs : List Byte) (i : Instr) (rest : List Byte), decode bs = .ok i rest →
    isOperation i = true ∧ wellFormed i = true ∧ encode i ++ rest = bs

/-- The op words R84 gives, laid out as issued bytes: that the word and the length stand little-endian is the model's choice,
log entry 3. -/
def Obligations.OpWordsAreTheStatedValues : Prop :=
  encode .crcInit = le32 0x01000000 ∧ encode .crcFinal = le32 0x03000000 ∧
  (∀ d, encode (.crcBlock d) = le32 0x04000000 ++ le32 (BitVec.ofNat 32 d.length) ++ d) ∧
  (∀ d, encode (.decPush d) = le32 0x20000000 ++ le32 (BitVec.ofNat 32 d.length) ++ d) ∧
  encode .decStep = le32 0x21000000 ∧ encode .decReset = le32 0x22000000 ∧
  (∀ b : Byte, encode (.crcUpdate b) = le32 (0x02000000 ||| b.setWidth 32)) ∧
  (∀ (cmd : Byte) (id : Half) (d : List Byte), encode (.encFrame cmd id d) =
    le32 (0x10000000 ||| (cmd.setWidth 32 <<< 16) ||| id.setWidth 32) ++ le32 (BitVec.ofNat 32 d.length) ++ d) ∧
  encode (pseudoEncAck 1) = le32 0x10040001 ++ le32 0 ∧
  encode (.encFrame 0xFF 0x1234 []) = le32 0x10FF1234 ++ le32 0

/-- Op words written out from R75 and R76 decode to the operations they stand for, and 95_test_vectors.md section 4's
illegal words are refused. The spec gives these words and lengths no byte order: little-endian is the model's choice, log
entry 3. -/
def Obligations.SampleOpWordsDecode : Prop :=
  decode [0x00, 0x00, 0x00, 0x01] = .ok .crcInit [] ∧
  decode [0x31, 0x00, 0x00, 0x02] = .ok (.crcUpdate 0x31) [] ∧
  decode [0x00, 0x00, 0x00, 0x04, 0x02, 0x00, 0x00, 0x00, 0xAA, 0xBB, 0xCC] = .ok (.crcBlock [0xAA, 0xBB]) [0xCC] ∧
  decode [0x34, 0x12, 0xFF, 0x10, 0x00, 0x00, 0x00, 0x00] = .ok (.encFrame 0xFF 0x1234 []) [] ∧
  decode [0x00, 0x00, 0x00, 0x21] = .ok .decStep [] ∧
  decode [0x01, 0x00, 0x00, 0x01] = .illegalOp 0x01000001 ∧
  decode [0x00, 0x01, 0x00, 0x21] = .illegalOp 0x21000100 ∧
  decode [0x00, 0x00, 0x00, 0x23] = .illegalOp 0x23000000

/-- R65: `decode_cmd` on every byte, and `raw` is its inverse. -/
def Obligations.CommandByteMapIsTotal : Prop :=
  decodeCmd 0x01 = .startUpgrade ∧ decodeCmd 0x02 = .transferChunk ∧ decodeCmd 0x03 = .endUpgrade ∧
  decodeCmd 0x04 = .ack ∧ decodeCmd 0x05 = .nack ∧
  (∀ c : Byte, c ∉ ([0x01, 0x02, 0x03, 0x04, 0x05] : List Byte) → decodeCmd c = .unknown c) ∧
  rawCmd .startUpgrade = 0x01 ∧ rawCmd .transferChunk = 0x02 ∧ rawCmd .endUpgrade = 0x03 ∧
  rawCmd .ack = 0x04 ∧ rawCmd .nack = 0x05 ∧ (∀ c : Byte, rawCmd (.unknown c) = c) ∧
  ∀ c : Byte, rawCmd (decodeCmd c) = c

/-- R64, R65: every byte is the command byte of exactly one row. The row as an instruction of its own is log entry 8
(DEDUCED). -/
def Obligations.CommandByteRowsRoundTrip : Prop :=
  (∀ c : Byte, encode (decodeCommandByte c) = [c] ∧ wellFormed (decodeCommandByte c) = true ∧
    isOperation (decodeCommandByte c) = false) ∧
  ∀ i : Instr, isOperation i = false → wellFormed i = true →
    ∃ c, encode i = [c] ∧ decodeCommandByte c = i

/-! ### CRCU -/

/-- R105. The first clause lays its op word out little-endian: the model's choice, log entry 3. -/
def Obligations.CrcInitRestartsTheRunningCrc : Prop :=
  encode .crcInit = le32 0x01000000 ∧
  (∀ s : State, exec .crcInit s =
    .next { s with crcState := 0xFFFFFFFF, results := s.results ++ [.completed] }) ∧
  (∀ s : State, execAll [.crcInit, .crcInit] s =
    .next { s with crcState := 0xFFFFFFFF, results := s.results ++ [.completed, .completed] }) ∧
  State.reset.crcState = 0xFFFFFFFF

/-- R101: eight passes, least significant bit first. -/
def Obligations.CrcUpdateIsTheBitwiseFold : Prop :=
  ∀ (c : Word) (b : Byte), crcUpdate c b =
    (fun x : Word => if x.getLsbD 0 = true then (x >>> 1) ^^^ 0xEDB88320 else x >>> 1)^[8] (c ^^^ b.setWidth 32)

/-- R106. The first clause lays its op word out little-endian: the model's choice, log entry 3. -/
def Obligations.CrcUpdateFoldsOneByte : Prop :=
  (∀ b : Byte, encode (.crcUpdate b) = le32 (0x02000000 ||| b.setWidth 32)) ∧
  (∀ (s : State) (b : Byte), exec (.crcUpdate b) s =
    .next { s with crcState := crcUpdate s.crcState b, results := s.results ++ [.completed] }) ∧
  crcUpdate 0xFFFFFFFF 0xFF = 0x00FFFFFF ∧ crcUpdate 0 0 = 0 ∧ (∀ b : Byte, crcUpdate 0 b = crcTableAt b) ∧
  crcUpdate 0xFFFFFFFF 0x31 = 0x7C231048

/-- R102. -/
def Obligations.CrcOfASequenceIsTheFold : Prop :=
  ∀ m : List Byte, crc32 m = m.foldl crcUpdate 0xFFFFFFFF ^^^ 0xFFFFFFFF

/-- R107. The first clause lays its op word out little-endian: the model's choice, log entry 3. -/
def Obligations.CrcFinalReturnsWithoutDisturbing : Prop :=
  encode .crcFinal = le32 0x03000000 ∧
  (∀ s : State, exec .crcFinal s =
    .next { s with results := s.results ++ [.crc (s.crcState ^^^ 0xFFFFFFFF)] }) ∧
  (∀ s : State, execAll [.crcInit, .crcFinal] s =
    .next { s with crcState := 0xFFFFFFFF, results := s.results ++ [.completed, .crc 0] }) ∧
  (∀ s : State, execAll [.crcFinal, .crcFinal] s =
    .next { s with results := s.results ++ [.crc (s.crcState ^^^ 0xFFFFFFFF), .crc (s.crcState ^^^ 0xFFFFFFFF)] }) ∧
  (∀ (s : State) (m n : List Byte), ∃ t,
    execAll (.crcInit :: m.map .crcUpdate ++ [.crcFinal] ++ n.map .crcUpdate ++ [.crcFinal]) s = .next t ∧
      t.results.getLast? = some (.crc (crc32 (m ++ n)))) ∧
  ∀ s : State, ∃ t,
    execAll (.crcInit :: ([0x31, 0x32, 0x33, 0x34, 0x35, 0x36, 0x37, 0x38, 0x39] : List Byte).map .crcUpdate ++
      [.crcFinal]) s = .next t ∧
      t.crcState = 0x340BC6D9 ∧ t.results.getLast? = some (.crc 0xCBF43926)

/-- R108. The model's choices: the first clause lays the op word and the length out little-endian (log entry 3), and `d` may
have the 2^32 bytes or more that no host can issue (log entry 17). -/
def Obligations.CrcBlockReturnsTheCrcOfItsOperand : Prop :=
  (∀ d, encode (.crcBlock d) = le32 0x04000000 ++ le32 (BitVec.ofNat 32 d.length) ++ d) ∧
  (∀ (s : State) (d : List Byte), exec (.crcBlock d) s =
    .next { s with results := s.results ++ [.crc (crc32 d)] }) ∧
  crc32 [] = 0x00000000 ∧ crc32 [0x00] = 0xD202EF8D ∧ crc32 [0xFF] = 0xFF000000 ∧
  crc32 [0xFF, 0xFF, 0xFF, 0xFF] = 0xFFFFFFFF ∧
  crc32 [0x31, 0x32, 0x33, 0x34, 0x35, 0x36, 0x37, 0x38, 0x39] = 0xCBF43926

/-- R103: the printed table is the one its definition gives. -/
def Obligations.CrcTableMatchesItsDefinition : Prop :=
  crcTable.length = 256 ∧ ∀ n : Byte, crcTableAt n = crcUpdate 0x00000000 n

/-- R104: the table-driven fold gives the same result for every remainder and byte. -/
def Obligations.TableFoldEqualsBitwiseFold : Prop :=
  ∀ (c : Word) (b : Byte),
    crcUpdate c b = crcTableAt ((c ^^^ b.setWidth 32).extractLsb' 0 8) ^^^ (c >>> 8)

/-- R21: the remainder after CRC.INIT and some CRC.UPDATE operations. -/
def Obligations.RunningRemainderIsTheCrcSoFar : Prop :=
  ∀ (s : State) (m : List Byte), execAll (.crcInit :: m.map .crcUpdate) s =
    .next { s with
      crcState := crc32 m ^^^ 0xFFFFFFFF
      results := s.results ++ List.replicate (m.length + 1) .completed }

/-- R110. -/
def Obligations.IncrementalAndOneShotCrcAgree : Prop :=
  ∀ (s : State) (m n : List Byte), ∃ t u,
    execAll (.crcInit :: (m ++ n).map .crcUpdate ++ [.crcFinal]) s = .next t ∧
    exec (.crcBlock (m ++ n)) s = .next u ∧
    t.results.getLast? = some (.crc (crc32 (m ++ n))) ∧ u.results.getLast? = some (.crc (crc32 (m ++ n)))

/-- R111: the residue, and its consequence for every frame ENC makes. The spec marks the universal claim as general
knowledge, not in the source. -/
def Obligations.CrcResidueIsConstant : Prop :=
  (∀ m : List Byte, crc32 (m ++ le32 (crc32 m)) = 0x2144DF1C) ∧
  ∀ (magic : Word) (x : Message), crc32 (x.wire magic) = 0x2144DF1C

/-- R112: no single-bit flip goes undetected. The spec marks the claim as general knowledge, not in the source. -/
def Obligations.SingleBitFlipChangesTheCrc : Prop :=
  ∀ (m : List Byte) (k b : Nat), k < m.length → b < 8 → crc32 (flipBit m k b) ≠ crc32 m

/-! ### ENC -/

/-- R130: the frame, field by field, and nothing else changes. The first clause lays the op word and the length out
little-endian: the model's choice, log entry 3. -/
def Obligations.EncFrameReturnsTheFrame : Prop :=
  (∀ (cmd : Byte) (id : Half) (d : List Byte), encode (.encFrame cmd id d) =
    le32 (0x10000000 ||| (cmd.setWidth 32 <<< 16) ||| id.setWidth 32) ++ le32 (BitVec.ofNat 32 d.length) ++ d) ∧
  (∀ (s : State) (cmd : Byte) (id : Half) (payload : List Byte), payload.length < 2 ^ 32 →
    exec (.encFrame cmd id payload) s =
      .next { s with results := s.results ++ [.bytes (Message.wire s.build.magic ⟨cmd, id, payload⟩)] }) ∧
  (∀ (magic : Word) (m : Message), (m.wire magic).length = 16 + m.payload.length) ∧
  Message.wire 0x12345678 ⟨0x04, 1, []⟩ =
    [0x78, 0x56, 0x34, 0x12, 0x01, 0x04, 0x01, 0x00, 0x00, 0x00, 0x00, 0x00, 0x9F, 0x99, 0x0F, 0xD9]

/-- R132: an oversize payload is refused by name, and no issued operation can carry one. -/
def Obligations.EncFrameRefusesOversizePayload : Prop :=
  (∀ (s : State) (cmd : Byte) (id : Half) (payload : List Byte), 2 ^ 32 ≤ payload.length →
    exec (.encFrame cmd id payload) s = .refused (.payloadTooLong payload.length)) ∧
  ∀ (s : State) (n : Nat), step s ≠ .refused (.payloadTooLong n)

/-- R131: byte `k` of the frame ENC returns. -/
def Obligations.EncFrameByteOrder : Prop :=
  ∀ (s : State) (cmd : Byte) (id : Half) (payload : List Byte), payload.length < 2 ^ 32 →
    ∃ out, exec (.encFrame cmd id payload) s = .next { s with results := s.results ++ [.bytes out] } ∧
      (∀ k, k < 4 → byteAt out k = byteAt (le32 s.build.magic) k) ∧ byteAt out 4 = 0x01 ∧ byteAt out 5 = cmd ∧
      (∀ k, k < 2 → byteAt out (6 + k) = byteAt (le16 id) k) ∧
      (∀ k, k < 4 → byteAt out (8 + k) = byteAt (le32 (BitVec.ofNat 32 payload.length)) k) ∧
      (∀ k, k < payload.length → byteAt out (12 + k) = byteAt payload k) ∧
      (∀ k, k < 4 → byteAt out (12 + payload.length + k) =
        byteAt (le32 (crc32 (out.take (12 + payload.length)))) k) ∧
      out.length = 16 + payload.length

/-- R137: the fields of the frame ENC returns, read back. -/
def Obligations.EncFrameFieldsReadBack : Prop :=
  ∀ (s : State) (cmd : Byte) (id : Half) (payload : List Byte), payload.length < 2 ^ 32 →
    ∃ out, exec (.encFrame cmd id payload) s = .next { s with results := s.results ++ [.bytes out] } ∧
      out.length = 16 + payload.length ∧ (rdLe32 out 8).toNat = payload.length ∧ byteAt out 5 = cmd ∧
      rdLe16 out 6 = id ∧ rdLe32 out (out.length - 4) = crc32 (out.take (out.length - 4))

/-- R135: equal operands and equal `MAGIC` give equal `out`, whatever ran before. -/
def Obligations.EncFrameDependsOnlyOnItsOperands : Prop :=
  ∀ (s t : State) (cmd : Byte) (id : Half) (payload : List Byte), payload.length < 2 ^ 32 →
    s.build.magic = t.build.magic →
    ∃ out, exec (.encFrame cmd id payload) s = .next { s with results := s.results ++ [.bytes out] } ∧
      exec (.encFrame cmd id payload) t = .next { t with results := t.results ++ [.bytes out] }

/-! ### DEC -/

/-- R150: DEC.PUSH appends, or under a finite capacity is held whole. The model's choices: the first clause lays the op word
and the length out little-endian (log entry 3), a hold is a next state (log entry 7), and `d` may have the 2^32 bytes or
more that no host can issue (log entry 17). -/
def Obligations.DecPushAppendsOrIsHeld : Prop :=
  (∀ d, encode (.decPush d) = le32 0x20000000 ++ le32 (BitVec.ofNat 32 d.length) ++ d) ∧
  (∀ (s : State) (d : List Byte), s.Fits d.length → exec (.decPush d) s =
    .next { s with buf := s.buf ++ d, results := s.results ++ [.completed] }) ∧
  ∀ (s : State) (d : List Byte) (cap : Nat), s.build.bufCap = some cap → cap < s.buf.length + d.length →
    exec (.decPush d) s = .next { s with results := s.results ++ [.held .bufFull] }

/-- R203: only DEC.PUSH under a finite capacity is ever held, and DEC.RESET lifts the hold of any push that fits an
empty buffer. The model's choices: a hold is a next state (log entry 7), and `d` may have the 2^32 bytes or more that no
host can issue (log entry 17). -/
def Obligations.OnlyAnOverfullPushIsHeld : Prop :=
  (∀ (i : Instr) (s t : State) (why : HoldReason), exec i s = .next t → t.results = s.results ++ [.held why] →
    ∃ d cap, i = .decPush d ∧ s.build.bufCap = some cap ∧ cap < s.buf.length + d.length ∧
      t.buf = s.buf ∧ t.crcState = s.crcState) ∧
  ∀ (s : State) (d : List Byte), (∀ cap, s.build.bufCap = some cap → d.length ≤ cap) →
    execAll [.decReset, .decPush d] s =
      .next { s with buf := d, results := s.results ++ [.completed, .completed] }

/-- R152. The first clause lays its op word out little-endian: the model's choice, log entry 3. -/
def Obligations.DecResetEmptiesTheBuffer : Prop :=
  encode .decReset = le32 0x22000000 ∧
  (∀ s : State, exec .decReset s = .next { s with buf := [], results := s.results ++ [.completed] }) ∧
  (∀ s : State, execAll [.decReset, .decReset] s =
    .next { s with buf := [], results := s.results ++ [.completed, .completed] }) ∧
  State.reset.buf = []

/-- R154, R160: where `buf[0]` cannot begin a magic, or begins a spurious one, exactly one byte is discarded and the
scan goes on in the same operation. -/
def Obligations.DecStepDiscardsOneByteAndRescans : Prop :=
  ∀ s : State, MagicMiss s.build.magic s.buf ∨ SpuriousAtFront s.build.magic s.buf →
    exec .decStep s = exec .decStep { s with buf := s.buf.drop 1 }

/-- R154, R155, R158: a proper prefix of the magic, an incomplete header or an incomplete frame is kept. -/
def Obligations.DecStepKeepsAnIncompleteFrame : Prop :=
  ∀ s : State, ResidueMagic s.build.magic s.buf ∨ ResidueHeader s.build.magic s.buf ∨
      ResidueFrame s.build.magic s.buf →
    exec .decStep s = .next { s with results := s.results ++ [.needMoreData] }

/-- R161, R163: a verified frame at the front is returned and removed, whatever its version and command. -/
def Obligations.DecStepReturnsTheFrameAtFront : Prop :=
  ∀ s : State, FrameAtFront s.build.magic s.buf →
    exec .decStep s = .next { s with
      buf := s.buf.drop (16 + (rdLe32 s.buf 8).toNat)
      results := s.results ++ [.frame
        { version := byteAt s.buf 4
          command := decodeCmd (byteAt s.buf 5)
          id := rdLe16 s.buf 6
          length := rdLe32 s.buf 8
          payload := slice s.buf 12 (12 + (rdLe32 s.buf 8).toNat)
          consumed := 16 + (rdLe32 s.buf 8).toNat }] }

/-- R179, R162, R165: DEC.STEP always completes; the bytes before it are the discards, the frame's bytes if a frame is
returned, and the bytes after it; nothing but `buf` and the result changes. -/
def Obligations.DecStepAccountsForEveryByte : Prop :=
  ∀ s : State, ∃ discarded : List Byte,
    (∃ left, s.buf = discarded ++ left ∧ ¬ FrameAtFront s.build.magic left ∧
      exec .decStep s = .next { s with buf := left, results := s.results ++ [.needMoreData] }) ∨
    (∃ f left, s.buf = discarded ++ f ++ left ∧ FrameAtFront s.build.magic (f ++ left) ∧
      f.length = (frameOf (f ++ left)).consumed ∧
      exec .decStep s = .next { s with buf := left, results := s.results ++ [.frame (frameOf (f ++ left))] })

/-- R165, R29: the result and the new `buf` depend on `buf` and `MAGIC` alone. -/
def Obligations.DecStepDependsOnlyOnBufAndMagic : Prop :=
  ∀ s t : State, s.buf = t.buf → s.build.magic = t.build.magic → ∃ left r,
    exec .decStep s = .next { s with buf := left, results := s.results ++ [r] } ∧
    exec .decStep t = .next { t with buf := left, results := t.results ++ [r] }

/-- R177: every position DEC.STEP discards was tested; none of them began a verified frame. -/
def Obligations.DiscardingSkipsNoFrame : Prop :=
  ∀ (s t : State) (j : Nat), exec .decStep s = .next t → j < s.buf.length → FrameAtFront s.build.magic (s.buf.drop j) →
    s.buf.length - j ≤ t.buf.length ∨ ∃ f, t.results.getLast? = some (.frame f) ∧
      s.buf.length - j ≤ t.buf.length + f.consumed

/-- R34: after NEED_MORE_DATA exactly one of the three conditions holds. -/
def Obligations.NeedMoreDataLeavesAResidue : Prop :=
  ∀ s t : State, exec .decStep s = .next t → t.results = s.results ++ [.needMoreData] →
    (ResidueMagic t.build.magic t.buf ∧ ¬ ResidueHeader t.build.magic t.buf ∧ ¬ ResidueFrame t.build.magic t.buf) ∨
    (¬ ResidueMagic t.build.magic t.buf ∧ ResidueHeader t.build.magic t.buf ∧ ¬ ResidueFrame t.build.magic t.buf) ∨
    (¬ ResidueMagic t.build.magic t.buf ∧ ¬ ResidueHeader t.build.magic t.buf ∧ ResidueFrame t.build.magic t.buf)

/-- R178: stepping again without a push changes nothing. -/
def Obligations.NeedMoreDataIsAFixedPoint : Prop :=
  ∀ s t : State, exec .decStep s = .next t → t.results = s.results ++ [.needMoreData] →
    exec .decStep t = .next { t with results := t.results ++ [.needMoreData] }

/-- R170: round trip. -/
def Obligations.DecodedFrameIsTheEncodedOne : Prop :=
  ∀ (s : State) (cmd : Byte) (id : Half) (payload : List Byte), payload.length < 2 ^ 32 → s.buf = [] →
    s.Fits (16 + payload.length) →
    ∃ out, exec (.encFrame cmd id payload) s = .next { s with results := s.results ++ [.bytes out] } ∧
      execAll [.decPush out, .decStep] s = .next { s with
        buf := []
        results := s.results ++ [.completed, .frame
          { version := 0x01, command := decodeCmd cmd, id := id, length := BitVec.ofNat 32 payload.length
            payload := payload, consumed := 16 + payload.length }] } ∧
      rawCmd (decodeCmd cmd) = cmd

/-- R171: abutting frames come out one per DEC.STEP, in order, and then NEED_MORE_DATA. -/
def Obligations.AbuttingFramesDrainInOrder : Prop :=
  ∀ (s : State) (ms : List Message), (∀ m ∈ ms, m.Fits) → s.buf = [] →
    s.Fits (wireAll s.build.magic ms).length →
    (∀ k, k ≤ ms.length → execAll (.decPush (wireAll s.build.magic ms) :: List.replicate k .decStep) s =
      .next { s with
        buf := wireAll s.build.magic (ms.drop k)
        results := s.results ++ .completed :: (ms.take k).map fun m => .frame m.received }) ∧
    execAll (.decPush (wireAll s.build.magic ms) :: List.replicate (ms.length + 1) .decStep) s =
      .next { s with
        buf := []
        results := s.results ++ .completed :: (ms.map fun m => .frame m.received) ++ [.needMoreData] }

/-- R83: the expansions, and DEC.DRAIN, which steps until NEED_MORE_DATA and returns the frames in order. -/
def Obligations.PseudoOperationsExpandAsListed : Prop :=
  (∀ (id : Half) (size : Word), pseudoEncStart id size = .encFrame 0x01 id (le32 size)) ∧
  (∀ (id : Half) (d : List Byte), pseudoEncChunk id d = .encFrame 0x02 id d) ∧
  (∀ id : Half, pseudoEncEnd id = .encFrame 0x03 id []) ∧ (∀ id : Half, pseudoEncAck id = .encFrame 0x04 id []) ∧
  (∀ id : Half, pseudoEncNack id = .encFrame 0x05 id []) ∧ (∀ d : List Byte, pseudoCrcOf d = .crcBlock d) ∧
  ∀ s : State,
    execAll (List.replicate ((drain s).1.length + 1) .decStep) s = .next (drain s).2 ∧
    (drain s).2.results = s.results ++ (drain s).1.map .frame ++ [.needMoreData]

/-- R172: partial delivery, in any non-empty pieces. -/
def Obligations.PartialDeliveryYieldsOneFrame : Prop :=
  ∀ (s : State) (m : Message) (pieces : List (List Byte)), m.Fits → s.buf = [] → s.Fits (m.wire s.build.magic).length →
    pieces.flatten = m.wire s.build.magic → (∀ p ∈ pieces, p ≠ []) →
    (∀ j, j < pieces.length →
      execAll ((pieces.take j).flatMap fun p => [.decPush p, .decStep]) s = .next { s with
        buf := (pieces.take j).flatten
        results := s.results ++ (List.replicate j [.completed, .needMoreData]).flatten }) ∧
    execAll (pieces.flatMap fun p => [.decPush p, .decStep]) s = .next { s with
      buf := []
      results := s.results ++ (List.replicate (pieces.length - 1) [.completed, .needMoreData]).flatten ++
        [.completed, .frame m.received] }

/-- R173: resynchronization past garbage on both sides of a frame. -/
def Obligations.GarbageAroundAFrameIsDiscarded : Prop :=
  ∀ (s : State) (m : Message) (g h : List Byte), m.Fits → s.buf = [] →
    s.Fits (g ++ m.wire s.build.magic ++ h).length →
    (∀ j, j < g.length → occursAt s.build.magic (g ++ m.wire s.build.magic) j = false) →
    execAll [.decPush (g ++ m.wire s.build.magic ++ h), .decStep] s = .next { s with
      buf := h, results := s.results ++ [.completed, .frame m.received] } ∧
    ((∀ j, occursAt s.build.magic h j = false) → ∃ left, left <:+ h ∧ ResidueMagic s.build.magic left ∧
      execAll [.decPush (g ++ m.wire s.build.magic ++ h), .decStep, .decStep] s = .next { s with
        buf := left, results := s.results ++ [.completed, .frame m.received, .needMoreData] })

/-- R174: a frame with one bit flipped. Outside the length field the byte at offset 0 is discarded; inside it, DEC waits
where the declared frame is longer than `buf`, and otherwise rejects unless the other trailer agrees. -/
def Obligations.FlippedBitIsRejected : Prop :=
  ∀ (s : State) (m : Message) (k b : Nat), m.Fits → k < (m.wire s.build.magic).length → b < 8 →
    s.buf = flipBit (m.wire s.build.magic) k b →
    (k < 8 ∨ 12 ≤ k → exec .decStep s = exec .decStep { s with buf := s.buf.drop 1 }) ∧
    (8 ≤ k → k < 12 → (rdLe32 s.buf 8).toNat ≠ m.payload.length) ∧
    (8 ≤ k → k < 12 → s.buf.length < 16 + (rdLe32 s.buf 8).toNat →
      exec .decStep s = .next { s with results := s.results ++ [.needMoreData] }) ∧
    (8 ≤ k → k < 12 → 16 + (rdLe32 s.buf 8).toNat ≤ s.buf.length →
      crc32 (s.buf.take (12 + (rdLe32 s.buf 8).toNat)) ≠ rdLe32 s.buf (12 + (rdLe32 s.buf 8).toNat) →
      exec .decStep s = exec .decStep { s with buf := s.buf.drop 1 })

/-- R175, R245: behind a header that declares more bytes than have arrived, pushing and stepping return nothing. -/
def Obligations.StallLastsUntilTheDeclaredLength : Prop :=
  ∀ (s : State) (d : List Byte), s.buf.take 4 = le32 s.build.magic → 12 ≤ s.buf.length → s.Fits d.length →
    s.buf.length + d.length < 16 + (rdLe32 s.buf 8).toNat →
    execAll [.decPush d, .decStep] s = .next { s with
      buf := s.buf ++ d, results := s.results ++ [.completed, .needMoreData] }

/-- R244: a header longer than a finite buffer deadlocks DEC; only DEC.RESET leaves that state. -/
def Obligations.OversizeHeaderDeadlocksUntilReset : Prop :=
  (∀ (i : Instr) (s t : State), s.Deadlocked → i ≠ .decReset → exec i s = .next t →
    t.Deadlocked ∧ ∀ f, t.results ≠ s.results ++ [.frame f]) ∧
  ∀ s : State, s.Deadlocked → ∃ t, exec .decReset s = .next t ∧ ¬ t.Deadlocked

/-! ### The frame command bytes -/

/-- The verified frame at the front that carries a row's byte (R64) is returned with the command R65 and R161 give it, and
removed (R162). That the row, which the table calls no operation, is an instruction with this effect is log entry 8
(DEDUCED). -/
def Obligations.CommandRowsSurfaceTheirFrame : Prop :=
  ∀ s : State, FrameAtFront s.build.magic s.buf →
    let surfaced (cmd : Command) : Host.Outcome State Fault Refusal := .next { s with
      buf := s.buf.drop (16 + (rdLe32 s.buf 8).toNat)
      results := s.results ++ [.frame { frameOf s.buf with command := cmd }] }
    (byteAt s.buf 5 = 0x01 → exec .frameStartUpgrade s = surfaced .startUpgrade) ∧
    (byteAt s.buf 5 = 0x02 → exec .frameTransferChunk s = surfaced .transferChunk) ∧
    (byteAt s.buf 5 = 0x03 → exec .frameEndUpgrade s = surfaced .endUpgrade) ∧
    (byteAt s.buf 5 = 0x04 → exec .frameAck s = surfaced .ack) ∧
    (byteAt s.buf 5 = 0x05 → exec .frameNack s = surfaced .nack) ∧
    ∀ c : Byte, c ∉ ([0x01, 0x02, 0x03, 0x04, 0x05] : List Byte) → byteAt s.buf 5 = c →
      exec (.frameUnknown c) s = surfaced (.unknown c)

/-- The model's choice, log entry 8: a command byte that no verified frame at the front carries has no effect. -/
def Obligations.CommandRowsElsewhereDoNothing : Prop :=
  ∀ (s : State) (c : Byte), ¬ (FrameAtFront s.build.magic s.buf ∧ byteAt s.buf 5 = c) →
    exec (decodeCommandByte c) s = .next s

/-- DEC.STEP runs the row of the frame's command byte: log entry 8 (DEDUCED). R161 itself speaks of `decode_cmd` alone. -/
def Obligations.DecStepRunsTheCommandRow : Prop :=
  ∀ s : State, FrameAtFront s.build.magic s.buf →
    exec .decStep s = exec (decodeCommandByte (byteAt s.buf 5)) s

/-! ### The whole machine -/

/-- R20, R33: only CRC.INIT and CRC.UPDATE write `crc_state`. -/
def Obligations.OnlyCrcInitAndUpdateWriteCrcState : Prop :=
  ∀ (i : Instr) (s t : State), exec i s = .next t → t.crcState ≠ s.crcState →
    i = .crcInit ∨ ∃ b, i = .crcUpdate b

/-- R22: DEC.PUSH appends at the back; DEC.STEP and DEC.RESET remove from the front, and so do the command rows DEC.STEP
runs (log entry 8); nothing else changes `buf`. A held push is a next state that leaves it (log entry 7). -/
def Obligations.BufferGrowsAtTheBackAndShrinksAtTheFront : Prop :=
  ∀ (i : Instr) (s t : State), exec i s = .next t →
    (∃ d, i = .decPush d ∧ (t.buf = s.buf ++ d ∨ t.buf = s.buf)) ∨
    ((i = .decStep ∨ i = .decReset ∨ isOperation i = false) ∧ t.buf <:+ s.buf) ∨ t.buf = s.buf

/-- R58: every step keeps `buf` within its capacity. -/
def Obligations.StepKeepsBufferWithinCapacity : Prop :=
  ∀ s t : State, s.withinCap = true → step s = .next t → t.withinCap = true

/-- R58 at reset, for every build. -/
def Obligations.ResetBufferIsWithinCapacity : Prop :=
  State.reset.withinCap = true ∧ ∀ b, (State.resetOf b).withinCap = true

/-- R8, R24: no step writes `MAGIC` or `BUF_CAP`. -/
def Obligations.StepKeepsTheBuildParameters : Prop :=
  ∀ s t : State, step s = .next t → t.build = s.build

/-- R79, R200: every operation that is performed returns exactly one result, of the kind R79 gives it. The list of results
is log entry 6's, and the hold among them log entry 7's. -/
def Obligations.EveryOperationReturnsOneResult : Prop :=
  ∀ (i : Instr) (s t : State), isOperation i = true → exec i s = .next t →
    t.issued = s.issued ∧ ∃ r, t.results = s.results ++ [r] ∧
      ((i = .crcInit ∨ (∃ b, i = .crcUpdate b) ∨ i = .decReset) → r = .completed) ∧
      ((i = .crcFinal ∨ ∃ d, i = .crcBlock d) → ∃ v, r = .crc v) ∧
      (∀ cmd id d, i = .encFrame cmd id d → ∃ out, r = .bytes out ∧ out.length = 16 + d.length) ∧
      ((∃ d, i = .decPush d) → r = .completed ∨ r = .held .bufFull) ∧
      (i = .decStep → r = .needMoreData ∨ ∃ f, r = .frame f)

/-- R53: operations on different units may be ordered in any way. -/
def Obligations.OperationsOnDifferentUnitsCommute : Prop :=
  ∀ (i j : Instr) (s t : State), isOperation i = true → isOperation j = true → unitOf i ≠ unitOf j →
    execAll [i, j] s = .next t →
    ∃ u a b, execAll [j, i] s = .next u ∧ t.results = s.results ++ [a, b] ∧ u.results = s.results ++ [b, a] ∧
      u.crcState = t.crcState ∧ u.buf = t.buf

/-- R153, R154, and R173's case of no magic: where the magic occurs nowhere in `buf`, no frame is returned and only a proper
prefix of the magic is kept. R214's last clause is followed only so far: log entry 13 (DEDUCED). -/
def Obligations.NoMagicMeansNoFrame : Prop :=
  ∀ s : State, (∀ j, occursAt s.build.magic s.buf j = false) →
    ∃ left, left <:+ s.buf ∧ ResidueMagic s.build.magic left ∧
      exec .decStep s = .next { s with buf := left, results := s.results ++ [.needMoreData] }
end

