-- ==== Sys2Proof/Laws/Crc.lean ====
section
/-! SUPPORT. The CRC remainder: folding in two parts, and its linearity over exclusive or (40_crc.md R101, R102, R104). -/

namespace Sys2Proof.Machine

theorem crcFold_append (c : Word) (m n : List Byte) : crcFold c (m ++ n) = crcFold (crcFold c m) n := by
  induction m generalizing c with
  | nil => rfl
  | cons b m ih => exact ih (crcUpdate c b)

theorem crcFold_eq_foldl (c : Word) (m : List Byte) : crcFold c m = m.foldl crcUpdate c := by
  induction m generalizing c with
  | nil => rfl
  | cons b m ih => exact ih (crcUpdate c b)

theorem crcBit_xor (c d : Word) : crcBit (c ^^^ d) = crcBit c ^^^ crcBit d := by
  have hs : (c ^^^ d) >>> 1 = (c >>> 1) ^^^ (d >>> 1) := BitVec.ushiftRight_xor_distrib c d 1
  unfold crcBit
  rw [BitVec.getLsbD_xor, hs]
  cases c.getLsbD 0 <;> cases d.getLsbD 0 <;> simp
  · rw [BitVec.xor_assoc]
  · rw [BitVec.xor_assoc, BitVec.xor_assoc, BitVec.xor_comm crcPoly]
  · rw [show c >>> 1 ^^^ crcPoly ^^^ (d >>> 1 ^^^ crcPoly) = (c >>> 1 ^^^ d >>> 1) ^^^ (crcPoly ^^^ crcPoly) by
      rw [BitVec.xor_assoc, BitVec.xor_assoc, ← BitVec.xor_assoc crcPoly, BitVec.xor_comm crcPoly (d >>> 1),
        BitVec.xor_assoc]]
    simp

theorem crcBits_xor (k : Nat) (c d : Word) : crcBits k (c ^^^ d) = crcBits k c ^^^ crcBits k d := by
  induction k generalizing c d with
  | zero => rfl
  | succ k ih => rw [crcBits, crcBit_xor, ih]; rfl

theorem crcBits_add (j k : Nat) (c : Word) : crcBits (j + k) c = crcBits k (crcBits j c) := by
  induction j generalizing c with
  | zero => simp [crcBits]
  | succ j ih => rw [Nat.succ_add, crcBits, ih]; rfl

/-- A pass loses nothing: only zero goes to zero, since `crcPoly` has its top bit set. -/
theorem crcBit_eq_zero {c : Word} (h : crcBit c = 0) : c = 0 := by
  unfold crcBit at h
  have top : (c >>> 1).getLsbD 31 = false := by simp
  split at h
  · exfalso
    have := congrArg (fun v : Word => v.getLsbD 31) h
    simp only [BitVec.getLsbD_xor, top, crcPoly] at this
    revert this
    decide
  · rename_i h0
    apply BitVec.eq_of_getLsbD_eq
    intro i hi
    rcases i with _ | i
    · simpa using h0
    · have := congrArg (fun v : Word => v.getLsbD i) h
      simp only [BitVec.getLsbD_ushiftRight] at this
      rw [Nat.add_comm] at this
      simpa using this

theorem crcBits_eq_zero (k : Nat) {c : Word} (h : crcBits k c = 0) : c = 0 := by
  induction k generalizing c with
  | zero => exact h
  | succ k ih => exact crcBit_eq_zero (ih h)

/-- Two remainders folded over the same bytes differ by their difference shifted along. -/
theorem crcFold_xor (c d : Word) (m : List Byte) :
    crcFold c m ^^^ crcFold d m = crcBits (8 * m.length) (c ^^^ d) := by
  induction m generalizing c d with
  | nil => rfl
  | cons b m ih =>
    have hb : crcUpdate c b ^^^ crcUpdate d b = crcBits 8 (c ^^^ d) := by
      unfold crcUpdate
      rw [← crcBits_xor]
      congr 1
      rw [BitVec.xor_assoc, ← BitVec.xor_assoc (b.setWidth 32), BitVec.xor_comm (b.setWidth 32) d, BitVec.xor_assoc,
        BitVec.xor_self, BitVec.xor_zero]
    rw [crcFold, crcFold, ih, hb, ← crcBits_add]
    congr 1
    simp only [List.length_cons]
    omega

end Sys2Proof.Machine
end

