-- ==== Sys2Proof/Laws/Operands.lean ====
section
/-! SUPPORT. The byte-order conversions of R11 undo each other, and a read of bytes sees only those bytes. -/

namespace Sys2Proof.Machine

@[simp] theorem le16_length (v : Half) : (le16 v).length = 2 := rfl

@[simp] theorem le32_length (v : Word) : (le32 v).length = 4 := rfl

theorem byteAt_append_left {a : List Byte} {i : Nat} (h : i < a.length) (b : List Byte) :
    byteAt (a ++ b) i = byteAt a i := by
  simp [byteAt, List.getD_eq_getElem?_getD, List.getElem?_append_left h]

theorem byteAt_append_right (a b : List Byte) (i : Nat) : byteAt (a ++ b) (a.length + i) = byteAt b i := by
  simp [byteAt, List.getD_eq_getElem?_getD, List.getElem?_append_right]

theorem byteAt_drop (s : List Byte) (n i : Nat) : byteAt (s.drop n) i = byteAt s (n + i) := by
  simp [byteAt, List.getD_eq_getElem?_getD]

theorem byteAt_take {n i : Nat} (h : i < n) (s : List Byte) : byteAt (s.take n) i = byteAt s i := by
  simp [byteAt, List.getD_eq_getElem?_getD, h]

theorem rdLe32_append_left {a : List Byte} {i : Nat} (h : i + 4 ≤ a.length) (b : List Byte) :
    rdLe32 (a ++ b) i = rdLe32 a i := by
  unfold rdLe32
  rw [byteAt_append_left (by omega), byteAt_append_left (by omega), byteAt_append_left (by omega),
    byteAt_append_left (by omega)]

theorem rdLe32_append_right (a b : List Byte) (i : Nat) : rdLe32 (a ++ b) (a.length + i) = rdLe32 b i := by
  simp [rdLe32, Nat.add_assoc, byteAt_append_right]

theorem rdLe32_drop (s : List Byte) (n i : Nat) : rdLe32 (s.drop n) i = rdLe32 s (n + i) := by
  simp [rdLe32, Nat.add_assoc, byteAt_drop]

theorem rdLe32_take {n i : Nat} (h : i + 4 ≤ n) (s : List Byte) : rdLe32 (s.take n) i = rdLe32 s i := by
  unfold rdLe32
  rw [byteAt_take (by omega), byteAt_take (by omega), byteAt_take (by omega), byteAt_take (by omega)]

/-- `rd_le32(le32(v), 0) = v` (R11), whatever follows. -/
theorem rdLe32_le32 (v : Word) (r : List Byte) : rdLe32 (le32 v ++ r) 0 = v := by
  apply BitVec.eq_of_getLsbD_eq
  intro i hi
  simp only [rdLe32, byteAt, le32, List.cons_append, List.getD_cons_succ, List.getD_cons_zero, BitVec.getLsbD_append,
    BitVec.getLsbD_extractLsb', Nat.zero_add]
  split
  · simp [*]
  · split
    · rw [show 8 + (i - 8) = i by omega]; simp [*]
    · split
      · rw [show 16 + (i - 8 - 8) = i by omega]; simp [*]
      · rw [show 24 + (i - 8 - 8 - 8) = i by omega]
        simp only [Bool.and_eq_right_iff_imp, decide_eq_true_eq]
        omega

/-- `rd_le16(le16(v), 0) = v` (R11), whatever follows. -/
theorem rdLe16_le16 (v : Half) (r : List Byte) : rdLe16 (le16 v ++ r) 0 = v := by
  apply BitVec.eq_of_getLsbD_eq
  intro i hi
  simp only [rdLe16, byteAt, le16, List.cons_append, List.getD_cons_succ, List.getD_cons_zero, BitVec.getLsbD_append,
    BitVec.getLsbD_extractLsb', Nat.zero_add]
  split
  · simp [*]
  · rw [show 8 + (i - 8) = i by omega]
    simp only [Bool.and_eq_right_iff_imp, decide_eq_true_eq]
    omega

theorem le32_injective {v w : Word} (h : le32 v = le32 w) : v = w := by
  rw [← rdLe32_le32 v [], ← rdLe32_le32 w [], h]

/-- The four bytes at `i`, written little-endian again. -/
theorem le32_rdLe32 {s : List Byte} {i : Nat} (h : i + 4 ≤ s.length) : le32 (rdLe32 s i) = slice s i (i + 4) := by
  have key : ∀ a b c d : Byte, le32 (d ++ c ++ b ++ a) = [a, b, c, d] := by
    intro a b c d
    simp only [le32, List.cons.injEq, and_true]
    refine ⟨?_, ?_, ?_, ?_⟩ <;> apply BitVec.eq_of_getLsbD_eq <;> intro j hj <;>
      simp only [BitVec.getLsbD_extractLsb', BitVec.getLsbD_append]
    · simp [hj]
    · rw [if_neg (by omega), if_pos (by omega)]; simp [hj]
    · rw [if_neg (by omega), if_neg (by omega), if_pos (by omega)]
      rw [show 16 + j - 8 - 8 = j by omega]; simp [hj]
    · rw [if_neg (by omega), if_neg (by omega), if_neg (by omega)]
      rw [show 24 + j - 8 - 8 - 8 = j by omega]; simp [hj]
  rw [rdLe32, key]
  apply List.ext_getElem
  · simp [slice]; omega
  · intro j h1 h2
    have hj : j < 4 := by simpa using h1
    have : j = 0 ∨ j = 1 ∨ j = 2 ∨ j = 3 := by omega
    rcases this with rfl | rfl | rfl | rfl <;>
      simp [slice, byteAt, show i < s.length by omega, show i + 1 < s.length by omega,
        show i + 2 < s.length by omega, show i + 3 < s.length by omega]

end Sys2Proof.Machine
end

