-- ==== Sys2Proof/Laws/State.lean ====
section
/-! SUPPORT. What each named update leaves in each field of the state. -/

namespace Sys2Proof.Machine

@[simp] theorem State.writeCrc_crcState (s : State) (v : Word) : (s.writeCrc v).crcState = v := rfl
@[simp] theorem State.writeCrc_buf (s : State) (v : Word) : (s.writeCrc v).buf = s.buf := rfl
@[simp] theorem State.writeCrc_build (s : State) (v : Word) : (s.writeCrc v).build = s.build := rfl
@[simp] theorem State.writeCrc_issued (s : State) (v : Word) : (s.writeCrc v).issued = s.issued := rfl
@[simp] theorem State.writeCrc_results (s : State) (v : Word) : (s.writeCrc v).results = s.results := rfl

@[simp] theorem State.bufAppend_crcState (s : State) (d : List Byte) : (s.bufAppend d).crcState = s.crcState := rfl
@[simp] theorem State.bufAppend_buf (s : State) (d : List Byte) : (s.bufAppend d).buf = s.buf ++ d := rfl
@[simp] theorem State.bufAppend_build (s : State) (d : List Byte) : (s.bufAppend d).build = s.build := rfl
@[simp] theorem State.bufAppend_issued (s : State) (d : List Byte) : (s.bufAppend d).issued = s.issued := rfl
@[simp] theorem State.bufAppend_results (s : State) (d : List Byte) : (s.bufAppend d).results = s.results := rfl

@[simp] theorem State.bufDrop_crcState (s : State) (n : Nat) : (s.bufDrop n).crcState = s.crcState := rfl
@[simp] theorem State.bufDrop_buf (s : State) (n : Nat) : (s.bufDrop n).buf = s.buf.drop n := rfl
@[simp] theorem State.bufDrop_build (s : State) (n : Nat) : (s.bufDrop n).build = s.build := rfl
@[simp] theorem State.bufDrop_issued (s : State) (n : Nat) : (s.bufDrop n).issued = s.issued := rfl
@[simp] theorem State.bufDrop_results (s : State) (n : Nat) : (s.bufDrop n).results = s.results := rfl

@[simp] theorem State.respond_crcState (s : State) (r : Result) : (s.respond r).crcState = s.crcState := rfl
@[simp] theorem State.respond_buf (s : State) (r : Result) : (s.respond r).buf = s.buf := rfl
@[simp] theorem State.respond_build (s : State) (r : Result) : (s.respond r).build = s.build := rfl
@[simp] theorem State.respond_issued (s : State) (r : Result) : (s.respond r).issued = s.issued := rfl
@[simp] theorem State.respond_results (s : State) (r : Result) : (s.respond r).results = s.results ++ [r] := rfl

@[simp] theorem State.hold_crcState (s : State) (why : HoldReason) : (s.hold why).crcState = s.crcState := rfl
@[simp] theorem State.hold_buf (s : State) (why : HoldReason) : (s.hold why).buf = s.buf := rfl
@[simp] theorem State.hold_build (s : State) (why : HoldReason) : (s.hold why).build = s.build := rfl
@[simp] theorem State.hold_issued (s : State) (why : HoldReason) : (s.hold why).issued = s.issued := rfl
@[simp] theorem State.hold_results (s : State) (why : HoldReason) : (s.hold why).results = s.results ++ [.held why] := rfl

@[simp] theorem State.takeIssued_crcState (s : State) (rest : List Byte) : (s.takeIssued rest).crcState = s.crcState := rfl
@[simp] theorem State.takeIssued_buf (s : State) (rest : List Byte) : (s.takeIssued rest).buf = s.buf := rfl
@[simp] theorem State.takeIssued_build (s : State) (rest : List Byte) : (s.takeIssued rest).build = s.build := rfl
@[simp] theorem State.takeIssued_issued (s : State) (rest : List Byte) : (s.takeIssued rest).issued = rest := rfl
@[simp] theorem State.takeIssued_results (s : State) (rest : List Byte) : (s.takeIssued rest).results = s.results := rfl

@[simp] theorem State.afterDiscards_crcState (s : State) : s.afterDiscards.crcState = s.crcState := rfl
@[simp] theorem State.afterDiscards_buf (s : State) : s.afterDiscards.buf = scan s.build.magic s.buf := rfl
@[simp] theorem State.afterDiscards_build (s : State) : s.afterDiscards.build = s.build := rfl
@[simp] theorem State.afterDiscards_issued (s : State) : s.afterDiscards.issued = s.issued := rfl
@[simp] theorem State.afterDiscards_results (s : State) : s.afterDiscards.results = s.results := rfl

@[simp] theorem State.resetOf_crcState (b : Build) : (State.resetOf b).crcState = 0xFFFFFFFF := rfl
@[simp] theorem State.resetOf_buf (b : Build) : (State.resetOf b).buf = [] := rfl
@[simp] theorem State.resetOf_build (b : Build) : (State.resetOf b).build = b := rfl
@[simp] theorem State.resetOf_issued (b : Build) : (State.resetOf b).issued = [] := rfl
@[simp] theorem State.resetOf_results (b : Build) : (State.resetOf b).results = [] := rfl

/-- Surfacing a frame, field by field. -/
theorem State.surface_eq (s : State) (cmd : Command) : s.surface cmd =
    { s with buf := s.buf.drop (frameTotal s.buf), results := s.results ++ [.frame (frameRecord cmd s.buf)] } := rfl

end Sys2Proof.Machine
end

