-- ==== Sys2Proof/Laws/Frames.lean ====
section
/-! SUPPORT. One pass of DEC.STEP's loop in the words of the rules, and the command rows. -/

namespace Sys2Proof.Machine

theorem frameTotal_eq (buf : List Byte) : frameTotal buf = 16 + (rdLe32 buf 8).toNat := by
  simp only [frameTotal, headerBytes, trailerBytes]
  omega

theorem frameRecord_decodeCmd (buf : List Byte) : frameRecord (decodeCmd (byteAt buf 5)) buf = frameOf buf := by
  simp [frameRecord, frameOf, frameTotal_eq]

theorem magicMatches_iff (magic : Word) (buf : List Byte) : magicMatches magic buf = true ↔ ¬ MagicMiss magic buf := by
  have h : buf.take 4 = buf.take (min 4 buf.length) := by
    rcases Nat.le_total 4 buf.length with h | h
    · rw [Nat.min_eq_left h]
    · rw [Nat.min_eq_right h, List.take_length, List.take_of_length_le h]
  simp [magicMatches, MagicMiss, magicBytes, h]

/-- A magic test that succeeds on four bytes or more is a whole magic. -/
theorem magicMatches_long {magic : Word} {buf : List Byte} (h : 4 ≤ buf.length) :
    magicMatches magic buf = true ↔ buf.take 4 = le32 magic := by
  rw [magicMatches_iff, MagicMiss, Nat.min_eq_left h, List.take_of_length_le (l := le32 magic) (by simp)]
  simp

/-- A magic test that succeeds on fewer bytes is a proper prefix of the magic. -/
theorem magicMatches_short {magic : Word} {buf : List Byte} (h : buf.length < 4) :
    magicMatches magic buf = true ↔ buf = (le32 magic).take buf.length := by
  rw [magicMatches_iff, MagicMiss, Nat.min_eq_right h.le]
  simp

theorem checksumMatches_iff (buf : List Byte) : checksumMatches buf = true ↔
    crc32 (buf.take (12 + (rdLe32 buf 8).toNat)) = rdLe32 buf (12 + (rdLe32 buf 8).toNat) := by
  simp [checksumMatches, frameTotal, headerBytes, trailerBytes]

theorem judge_eq (magic : Word) (buf : List Byte) : judge magic buf =
    if magicMatches magic buf then
      if buf.length < 4 then .wait
      else if buf.length < 12 then .wait
      else if buf.length < 16 + (rdLe32 buf 8).toNat then .wait
      else if checksumMatches buf then .accept
      else .discard
    else .discard := by
  rw [← frameTotal_eq]
  rfl

theorem take_four_length {magic : Word} {buf : List Byte} (h : buf.take 4 = le32 magic) : 4 ≤ buf.length := by
  have := congrArg List.length h
  simp at this
  omega

/-- R73 is the case in which the loop returns a frame. -/
theorem judge_accept_iff (magic : Word) (buf : List Byte) : judge magic buf = .accept ↔ FrameAtFront magic buf := by
  constructor
  · intro h
    rw [judge_eq] at h
    split at h <;> try cases h
    split at h <;> try cases h
    split at h <;> try cases h
    split at h <;> try cases h
    split at h <;> try cases h
    rename_i hm h4 _ ht hc
    exact ⟨(magicMatches_long (by omega)).1 hm, by omega, (checksumMatches_iff buf).1 hc⟩
  · rintro ⟨hm, ht, hc⟩
    have h4 := take_four_length hm
    have h12 : 12 ≤ buf.length := by omega
    rw [judge_eq]
    rw [if_pos ((magicMatches_long h4).2 hm), if_neg (by omega), if_neg (by omega), if_neg (by omega),
      if_pos ((checksumMatches_iff buf).2 hc)]

/-- R154, R155, R158 are the cases in which the loop returns NEED_MORE_DATA. -/
theorem judge_wait_iff (magic : Word) (buf : List Byte) : judge magic buf = .wait ↔
    ResidueMagic magic buf ∨ ResidueHeader magic buf ∨ ResidueFrame magic buf := by
  constructor
  · intro h
    rw [judge_eq] at h
    split at h <;> try cases h
    rename_i hm
    split at h
    · rename_i h4
      exact .inl ⟨h4, (magicMatches_short h4).1 hm⟩
    rename_i h4
    have hm' := (magicMatches_long (by omega)).1 hm
    split at h
    · rename_i h12
      exact .inr (.inl ⟨hm', h12⟩)
    split at h
    · rename_i h12 ht
      exact .inr (.inr ⟨hm', by omega, ht⟩)
    split at h <;> cases h
  · rintro (⟨h4, hm⟩ | ⟨hm, h12⟩ | ⟨hm, h12, ht⟩)
    · rw [judge_eq]
      rw [if_pos ((magicMatches_short h4).2 hm), if_pos h4]
    · have h4 := take_four_length hm
      rw [judge_eq]
      rw [if_pos ((magicMatches_long h4).2 hm), if_neg (by omega), if_pos h12]
    · have h4 := take_four_length hm
      rw [judge_eq]
      rw [if_pos ((magicMatches_long h4).2 hm), if_neg (by omega), if_neg (by omega), if_pos ht]

/-- R154 and R160 are the cases in which the loop discards a byte. -/
theorem judge_discard_iff (magic : Word) (buf : List Byte) : judge magic buf = .discard ↔
    MagicMiss magic buf ∨ SpuriousAtFront magic buf := by
  constructor
  · intro h
    by_cases hm : magicMatches magic buf = true
    · right
      rw [judge_eq] at h
      rw [if_pos hm] at h
      split at h <;> try cases h
      split at h <;> try cases h
      split at h <;> try cases h
      split at h <;> try cases h
      rename_i h4 _ ht hc
      exact ⟨(magicMatches_long (by omega)).1 hm, by omega, fun e => hc ((checksumMatches_iff buf).2 e)⟩
    · left
      by_contra hn
      exact hm ((magicMatches_iff magic buf).2 (fun e => e hn))
  · rintro (h | ⟨hm, ht, hc⟩)
    · have hn : ¬ magicMatches magic buf = true := fun e => (magicMatches_iff magic buf).1 e h
      rw [judge_eq]
      rw [if_neg hn]
    · have h4 := take_four_length hm
      have h12 : 12 ≤ buf.length := by omega
      rw [judge_eq]
      rw [if_pos ((magicMatches_long h4).2 hm), if_neg (by omega), if_neg (by omega), if_neg (by omega),
        if_neg (fun e => hc ((checksumMatches_iff buf).1 e))]

@[simp] theorem judge_nil (magic : Word) : judge magic [] = .wait :=
  (judge_wait_iff magic []).2 (.inl ⟨by simp, by simp⟩)

/-- Everything a command row can do: surface the frame that carries its byte, or nothing. -/
theorem State.commandRow_cases (s : State) (code : Byte) (cmd : Command) :
    (FrameAtFront s.build.magic s.buf ∧ byteAt s.buf 5 = code ∧ s.commandRow code cmd = s.surface cmd) ∨
    (¬ (FrameAtFront s.build.magic s.buf ∧ byteAt s.buf 5 = code) ∧ s.commandRow code cmd = s) := by
  rw [← judge_accept_iff]
  unfold State.commandRow
  split
  · rename_i h
    exact .inl ⟨h.1, h.2, rfl⟩
  · rename_i h
    exact .inr ⟨h, rfl⟩

/-- The row of the byte a verified frame carries surfaces it with the command R65 maps the byte to. -/
theorem rowOf_accepted {s : State} (h : judge s.build.magic s.buf = .accept) :
    rowOf (byteAt s.buf 5) s = s.surface (decodeCmd (byteAt s.buf 5)) := by
  have row : ∀ {c : Byte} (cmd : Command), byteAt s.buf 5 = c → s.commandRow c cmd = s.surface cmd := by
    intro c cmd hc
    rw [State.commandRow, if_pos ⟨h, hc⟩]
  unfold rowOf decodeCmd
  split
  · exact row _ ‹_›
  split
  · exact row _ ‹_›
  split
  · exact row _ ‹_›
  split
  · exact row _ ‹_›
  split
  · exact row _ ‹_›
  have hu : decodeCmd (byteAt s.buf 5) = .unknown (byteAt s.buf 5) := by
    rw [decodeCmd, if_neg ‹_›, if_neg ‹_›, if_neg ‹_›, if_neg ‹_›, if_neg ‹_›]
  rw [rowUnknown, if_pos hu]
  exact row _ rfl

end Sys2Proof.Machine
end

