-- ==== Sys2Proof/Laws/Dec.lean ====
section
/-! SUPPORT. Where DEC.STEP's scan ends, what settling there does, and the room a push needs. -/

namespace Sys2Proof.Machine

/-- A verdict other than discard ends the scan. -/
theorem scan_stops {magic : Word} {buf : List Byte} (h : judge magic buf ≠ .discard) : scan magic buf = buf := by
  cases buf with
  | nil => rfl
  | cons b t => rw [scan, if_neg h]

/-- A discard drops exactly one byte. -/
theorem scan_discards {magic : Word} {buf : List Byte} (h : judge magic buf = .discard) :
    scan magic buf = scan magic (buf.drop 1) := by
  cases buf with
  | nil => simp at h
  | cons b t => rw [scan, if_pos h]; rfl

/-- The scan never ends on a byte it would discard. -/
theorem judge_scan (magic : Word) (buf : List Byte) : judge magic (scan magic buf) ≠ .discard := by
  induction buf with
  | nil => simp [scan]
  | cons b t ih =>
    rw [scan]
    split
    · exact ih
    · assumption

/-- The scan only drops bytes from the front, and tests every position it drops. -/
theorem scan_discarded (magic : Word) (buf : List Byte) : ∃ g, buf = g ++ scan magic buf ∧
    ∀ j, j < g.length → judge magic (buf.drop j) = .discard := by
  induction buf with
  | nil => exact ⟨[], rfl, by simp⟩
  | cons b t ih =>
    rw [scan]
    split
    · rename_i h
      obtain ⟨g, hg, hj⟩ := ih
      refine ⟨b :: g, by rw [List.cons_append, ← hg], ?_⟩
      rintro (_ | j) hlt
      · exact h
      · exact hj j (by simpa using hlt)
    · exact ⟨[], rfl, by simp⟩

theorem scan_suffix (magic : Word) (buf : List Byte) : scan magic buf <:+ buf := by
  obtain ⟨g, hg, -⟩ := scan_discarded magic buf
  exact ⟨g, hg.symm⟩

/-- Bytes each of which is discarded with what follows it are scanned past. -/
theorem scan_past {magic : Word} (g r : List Byte) (h : ∀ j, j < g.length → judge magic ((g ++ r).drop j) = .discard) :
    scan magic (g ++ r) = scan magic r := by
  induction g with
  | nil => rfl
  | cons b g ih =>
    have h0 : judge magic (b :: g ++ r) = .discard := h 0 (by simp)
    rw [scan_discards h0]
    exact ih fun j hj => by simpa using h (j + 1) (by simpa using hj)

/-- Settling on a verified frame returns and removes it. -/
theorem State.settle_accept {s : State} (h : FrameAtFront s.build.magic s.buf) : s.settle =
    { s with buf := s.buf.drop (16 + (rdLe32 s.buf 8).toNat), results := s.results ++ [.frame (frameOf s.buf)] } := by
  have hj := (judge_accept_iff _ _).2 h
  rw [State.settle, if_pos hj, rowOf_accepted hj, State.surface_eq, frameTotal_eq, frameRecord_decodeCmd]

/-- Settling anywhere else is NEED_MORE_DATA. -/
theorem State.settle_wait {s : State} (h : ¬ FrameAtFront s.build.magic s.buf) : s.settle = s.respond .needMoreData := by
  rw [State.settle, if_neg (fun e => h ((judge_accept_iff _ _).1 e))]

theorem State.hasRoom_iff (s : State) (n : Nat) : s.hasRoom n = true ↔ s.Fits n := by
  unfold State.hasRoom State.Fits
  cases s.build.bufCap <;> simp

theorem State.withinCap_iff (s : State) : s.withinCap = true ↔ s.Fits 0 := by
  unfold State.withinCap State.Fits
  cases s.build.bufCap <;> simp

end Sys2Proof.Machine
end

