-- ==== Sys2Proof/Laws/Decode.lean ====
section
/-! SUPPORT. The data operand of an issued operation (30_encoding.md R74, R78). -/

namespace Sys2Proof

open Sys2Proof.Machine

/-- A data operand that fits its length field is taken back whole. -/
theorem takeData_encodeData {d : List Byte} (h : dataFits d = true) (rest : List Byte) :
    takeData (encodeData d ++ rest) = some (d, rest) := by
  have hn : d.length < 2 ^ 32 := by simpa [dataFits] using h
  have hv := rdLe32_le32 (BitVec.ofNat 32 d.length) []
  simp only [le32, List.cons_append, List.nil_append] at hv
  simp only [encodeData, le32, List.cons_append, List.nil_append, takeData, hv, BitVec.toNat_ofNat, Nat.mod_eq_of_lt hn,
    List.length_append]
  rw [if_pos (by omega)]
  simp

/-- What is taken as a data operand fits its length field, and its bytes are the ones issued. -/
theorem takeData_some {bs d rest : List Byte} (h : takeData bs = some (d, rest)) :
    dataFits d = true ∧ encodeData d ++ rest = bs := by
  unfold takeData at h
  split at h
  · rename_i n0 n1 n2 n3 tl
    simp only at h
    split at h
    · rename_i hle
      obtain ⟨rfl, rfl⟩ : List.take _ tl = d ∧ List.drop _ tl = rest := by simpa using h
      have hlt := (rdLe32 [n0, n1, n2, n3] 0).isLt
      have hlen : (tl.take (rdLe32 [n0, n1, n2, n3] 0).toNat).length = (rdLe32 [n0, n1, n2, n3] 0).toNat := by
        rw [List.length_take]; omega
      refine ⟨by simp [dataFits, hlen, hlt], ?_⟩
      have hb := le32_rdLe32 (s := [n0, n1, n2, n3]) (i := 0) (by simp)
      rw [encodeData, hlen, BitVec.ofNat_toNat, BitVec.setWidth_eq, hb]
      simp [slice]
    · cases h
  · cases h

/-- The op word of the first four issued bytes. -/
theorem decode_le32 (w : Word) (rest : List Byte) : decode (le32 w ++ rest) = decodeOp w rest := by
  have hv := rdLe32_le32 w []
  simp only [le32, List.cons_append, List.nil_append] at hv
  simp only [le32, List.cons_append, List.nil_append, decode, hv]

/-- The four fields of an op word are the ones it is made of (R75). -/
theorem opWord_fields (op a b c : Byte) : opField (opWord op a b c) = op ∧ aField (opWord op a b c) = a ∧
    bField (opWord op a b c) = b ∧ cField (opWord op a b c) = c := by
  refine ⟨?_, ?_, ?_, ?_⟩ <;> simp only [opField, aField, bField, cField, opWord] <;>
    apply BitVec.eq_of_getLsbD_eq <;> intro j hj <;>
    simp only [BitVec.getLsbD_extractLsb', BitVec.getLsbD_append]
  · rw [if_neg (by omega), if_neg (by omega), if_neg (by omega), show 24 + j - 8 - 8 - 8 = j by omega]
    simp [hj]
  · rw [if_neg (by omega), if_neg (by omega), if_pos (by omega), show 16 + j - 8 - 8 = j by omega]
    simp [hj]
  · rw [if_neg (by omega), if_pos (by omega)]
    simp [hj]
  · simp [hj]

/-- An op word is its four fields (R75). -/
theorem opWord_of_fields (w : Word) : opWord (opField w) (aField w) (bField w) (cField w) = w := by
  apply le32_injective
  have h := opWord_fields (opField w) (aField w) (bField w) (cField w)
  simp only [opField, aField, bField, cField] at h
  simp [le32, opField, aField, bField, cField, h]

/-- The id of ENC.FRAME is the fields `B` and `C` (R75). -/
theorem idField_opWord (op a : Byte) (id : Half) :
    idField (opWord op a (id.extractLsb' 8 8) (id.extractLsb' 0 8)) = id := by
  simp only [idField, opWord]
  apply BitVec.eq_of_getLsbD_eq
  intro j hj
  simp only [BitVec.getLsbD_extractLsb', BitVec.getLsbD_append]
  split
  · simp [*]; omega
  · rw [if_pos (by omega), show 8 + (0 + j - 8) = j by omega]
    simp [hj]
    omega

/-- The fields `B` and `C` are the two bytes of the id (R75). -/
theorem idField_bytes (w : Word) :
    (idField w).extractLsb' 8 8 = bField w ∧ (idField w).extractLsb' 0 8 = cField w := by
  constructor <;> apply BitVec.eq_of_getLsbD_eq <;> intro j hj <;> simp [idField, bField, cField, hj]

end Sys2Proof
end

