-- ==== Sys2Proof/Laws/PerInstr.lean ====
section
/-! SUPPORT. Per-instruction laws: how many bytes each instruction's encoding has (30_encoding.md rules R64, R78). -/

namespace Sys2Proof.Laws.EncodeLength

open Sys2Proof

/-- The length R78 gives: one op word; an op word, a length and the data; or one command byte. -/
def size : Instr → Nat
  | .crcInit => 4
  | .crcUpdate _ => 4
  | .crcFinal => 4
  | .crcBlock d => 8 + d.length
  | .encFrame _ _ payload => 8 + payload.length
  | .decPush d => 8 + d.length
  | .decStep => 4
  | .decReset => 4
  | .frameStartUpgrade => 1
  | .frameTransferChunk => 1
  | .frameEndUpgrade => 1
  | .frameAck => 1
  | .frameNack => 1
  | .frameUnknown _ => 1

def Statement (i : Instr) : Prop := (encode i).length = size i

theorem withOperand (w : Word) (d : List Byte) :
    (Machine.le32 w ++ encodeData d).length = 8 + d.length := by
  simp [Machine.le32, encodeData]
  omega

theorem crcInit : Statement .crcInit := rfl
theorem crcUpdate (b : Byte) : Statement (.crcUpdate b) := rfl
theorem crcFinal : Statement .crcFinal := rfl
theorem crcBlock (d : List Byte) : Statement (.crcBlock d) := withOperand _ d
theorem encFrame (cmd : Byte) (id : Half) (payload : List Byte) : Statement (.encFrame cmd id payload) :=
  withOperand _ payload
theorem decPush (d : List Byte) : Statement (.decPush d) := withOperand _ d
theorem decStep : Statement .decStep := rfl
theorem decReset : Statement .decReset := rfl
theorem frameStartUpgrade : Statement .frameStartUpgrade := rfl
theorem frameTransferChunk : Statement .frameTransferChunk := rfl
theorem frameEndUpgrade : Statement .frameEndUpgrade := rfl
theorem frameAck : Statement .frameAck := rfl
theorem frameNack : Statement .frameNack := rfl
theorem frameUnknown (c : Byte) : Statement (.frameUnknown c) := rfl

end Sys2Proof.Laws.EncodeLength
end

