-- ==== Sys2Proof/Laws/Wire.lean ====
section
/-! SUPPORT. The frame of a message, read by DEC (30_encoding.md R60, R73, R81; 41_encoder.md R130). -/

namespace Sys2Proof.Machine

theorem Message.body_length (magic : Word) (m : Message) : (m.body magic).length = 12 + m.payload.length := by
  simp only [Message.body, List.length_append, le32_length, le16_length, List.length_cons, List.length_nil]

theorem Message.wire_length (magic : Word) (m : Message) : (m.wire magic).length = 16 + m.payload.length := by
  simp only [Message.wire, List.length_append, le32_length, Message.body_length]
  omega

/-- ENC makes the message's frame. -/
theorem encodeFrame_eq_wire (magic : Word) (m : Message) : encodeFrame magic m.cmd m.id m.payload = m.wire magic := rfl

/-- The header of a frame, with the payload and what follows. -/
theorem Message.wire_header (magic : Word) (m : Message) (r : List Byte) : m.wire magic ++ r =
    (le32 magic ++ [0x01, m.cmd] ++ le16 m.id) ++
      (le32 (BitVec.ofNat 32 m.payload.length) ++ (m.payload ++ (le32 (crc32 (m.body magic)) ++ r))) := by
  simp [Message.wire, Message.body]

theorem Message.wire_magic (magic : Word) (m : Message) (r : List Byte) :
    (m.wire magic ++ r).take 4 = le32 magic := by
  rw [Message.wire_header]
  simp [le32]

/-- The length field of a frame is the payload's length. -/
theorem Message.wire_len {m : Message} (h : m.Fits) (magic : Word) (r : List Byte) :
    (rdLe32 (m.wire magic ++ r) 8).toNat = m.payload.length := by
  rw [Message.wire_header]
  have := rdLe32_append_right (le32 magic ++ [0x01, m.cmd] ++ le16 m.id)
    (le32 (BitVec.ofNat 32 m.payload.length) ++ (m.payload ++ (le32 (crc32 (m.body magic)) ++ r))) 0
  rw [show (le32 magic ++ [0x01, m.cmd] ++ le16 m.id).length + 0 = 8 from rfl] at this
  rw [this, rdLe32_le32, BitVec.toNat_ofNat, Nat.mod_eq_of_lt h]

/-- A message's frame is accepted, whatever follows it. -/
theorem Message.wire_frameAtFront {m : Message} (h : m.Fits) (magic : Word) (r : List Byte) :
    FrameAtFront magic (m.wire magic ++ r) := by
  have hb : (m.body magic).length = 12 + m.payload.length := m.body_length magic
  refine ⟨m.wire_magic magic r, ?_, ?_⟩
  · rw [Message.wire_len h, List.length_append, Message.wire_length]
    omega
  · rw [Message.wire_len h, ← hb, Message.wire, List.append_assoc, List.take_left]
    have := rdLe32_append_right (m.body magic) (le32 (crc32 (m.body magic)) ++ r) 0
    rw [Nat.add_zero] at this
    rw [this, rdLe32_le32]

/-- The record DEC makes of a message's frame, whatever follows it. -/
theorem Message.frameOf_wire {m : Message} (h : m.Fits) (magic : Word) (r : List Byte) :
    frameOf (m.wire magic ++ r) = m.received := by
  have hl : rdLe32 (m.wire magic ++ r) 8 = BitVec.ofNat 32 m.payload.length := by
    rw [← Message.wire_len h magic r, BitVec.ofNat_toNat, BitVec.setWidth_eq]
  have hid : rdLe16 (m.wire magic ++ r) 6 = m.id := by
    rw [Message.wire_header]
    exact rdLe16_le16 m.id []
  have hp : slice (m.wire magic ++ r) 12 (12 + m.payload.length) = m.payload := by
    rw [Message.wire_header, slice, List.drop_take]
    simp [le32, le16]
  simp only [frameOf, Message.received, hl, hid, BitVec.toNat_ofNat, Nat.mod_eq_of_lt h, hp]
  rw [Message.wire_header]
  rfl

end Sys2Proof.Machine
end

