-- ==== Sys2Proof/Laws/Step.lean ====
section
/-! SUPPORT. Runs of operations, and that a placed row of the opcode table is what the next step runs. -/

namespace Sys2Proof.Machine

theorem execAll_append {a : List Instr} {s t : State} (h : execAll a s = .next t) (b : List Instr) :
    execAll (a ++ b) s = execAll b t := by
  induction a generalizing s with
  | nil =>
    simp only [execAll, Host.Outcome.next.injEq] at h
    subst h
    rfl
  | cons i a ih =>
    simp only [execAll, List.cons_append] at h ⊢
    cases hx : exec i s <;> simp only [hx] at h ⊢
    · exact ih h
    · cases h
    · cases h

/-- The row of a command byte, as `exec` runs it. -/
theorem exec_decodeCommandByte (c : Byte) (s : State) : exec (decodeCommandByte c) s = .next (rowOf c s) := by
  unfold decodeCommandByte rowOf
  split
  · rfl
  split
  · rfl
  split
  · rfl
  split
  · rfl
  split
  · rfl
  rfl

/-- The next step runs the op word placed for it, with an empty data operand where it takes one. -/
theorem fetch_issueOpWord (s : State) (w : Word) :
    fetch (s.issueOpWord w) = decodeOp w ((if takesData w then le32 0 else []) ++ s.issued) := by
  rw [fetch, State.issueOpWord, List.append_assoc]
  exact decode_le32 w _

/-- A command byte placed for the next step is taken by DEC.STEP from byte 5 of a frame, and its row is run, for every
`MAGIC`. -/
theorem step_offerCommandByte (s : State) (c : Byte) : step (s.offerCommandByte c) =
    exec (decodeCommandByte c) { s with buf := encodeFrame s.build.magic c 0 [] ++ s.buf } := by
  have hfit : (⟨c, 0, []⟩ : Message).Fits := by simp [Message.Fits]
  have hf := Message.wire_frameAtFront hfit s.build.magic s.buf
  have hj := (judge_accept_iff _ _).2 hf
  have hc : byteAt ((⟨c, 0, []⟩ : Message).wire s.build.magic ++ s.buf) 5 = c := by
    rw [Message.wire_header]
    rfl
  have hd : fetch (s.offerCommandByte c) = .ok .decStep s.issued := by
    rw [fetch, State.offerCommandByte]
    exact decode_le32 (opWord 0x21 0 0 0) s.issued
  rw [exec_decodeCommandByte, step, hd]
  change Host.Outcome.next (State.settle { s with buf := scan s.build.magic ((⟨c, 0, []⟩ : Message).wire s.build.magic ++ s.buf) }) =
    .next (rowOf c { s with buf := (⟨c, 0, []⟩ : Message).wire s.build.magic ++ s.buf })
  rw [scan_stops (by rw [hj]; decide), State.settle, if_pos hj]
  change Host.Outcome.next (rowOf (byteAt ((⟨c, 0, []⟩ : Message).wire s.build.magic ++ s.buf) 5) _) = _
  rw [hc]

end Sys2Proof.Machine
end

