-- ==== Sys2Proof/Machine/Asm.lean ====
section
/-! DEFINITION. The textual syntax of test programs: one operation per line (30_encoding.md rules R82, R83). What R82
leaves open is settled in log entry 14. -/

namespace Sys2Proof.Machine

/-- A token of a line: a mnemonic or number, a comma, or a byte string. -/
inductive Token where
  | word (cs : List Char)
  | comma
  | bytes (d : List Byte)
  deriving DecidableEq, Repr

/-- Where the reader of a line stands. Collected characters and bytes are kept newest first. -/
inductive LexMode where
  | between
  | inWord (acc : List Char)
  | inQuotes (acc : List Byte)
  /-- Inside braces: the bytes so far, and the digits of the byte being read. -/
  | inBraces (acc : List Byte) (digits : List Nat)
  /-- One `-` has been read. -/
  | dash
  | inComment
  deriving DecidableEq, Repr

/-- The code of the opening brace. -/
def braceOpen : Nat := 0x7B

/-- The code of the closing brace. -/
def braceClose : Nat := 0x7D

/-- The value of a hexadecimal digit. -/
def hexDigit (c : Char) : Option Nat :=
  let n := c.toNat
  if 48 ≤ n ∧ n ≤ 57 then some (n - 48)
  else if 65 ≤ n ∧ n ≤ 70 then some (n - 55)
  else if 97 ≤ n ∧ n ≤ 102 then some (n - 87)
  else none

/-- A blank between tokens. -/
def isBlank (c : Char) : Bool := c.toNat == 32 || c.toNat == 9

/-- A character of a mnemonic or number: a letter, a digit or a full stop. -/
def isWordChar (c : Char) : Bool :=
  let n := c.toNat
  (48 ≤ n && n ≤ 57) || (65 ≤ n && n ≤ 90) || (97 ≤ n && n ≤ 122) || n == 46

/-- What a character begins between tokens. -/
def lexOpen (c : Char) : Option (List Token × LexMode) :=
  if isBlank c then some ([], .between)
  else if c.toNat = 44 then some ([.comma], .between)
  else if c.toNat = 34 then some ([], .inQuotes [])
  else if c.toNat = braceOpen then some ([], .inBraces [] [])
  else if c.toNat = 45 then some ([], .dash)
  else if isWordChar c then some ([], .inWord [c])
  else none

/-- The byte two hexadecimal digits spell, added to those read before; no digit adds none. -/
def closeByte (acc : List Byte) : List Nat → Option (List Byte)
  | [] => some acc
  | [lo, hi] => some (BitVec.ofNat 8 (16 * hi + lo) :: acc)
  | _ => none

/-- Reads one character: the tokens it completes and the mode after it. -/
def lexChar (m : LexMode) (c : Char) : Option (List Token × LexMode) :=
  match m with
  | .between => lexOpen c
  | .inWord acc =>
    if isWordChar c then some ([], .inWord (c :: acc))
    else (lexOpen c).map fun r => (.word acc.reverse :: r.1, r.2)
  | .inQuotes acc =>
    if c.toNat = 34 then some ([.bytes acc.reverse], .between)
    else if c.toNat < 128 then some ([], .inQuotes (BitVec.ofNat 8 c.toNat :: acc))
    else none
  | .inBraces acc digits =>
    if isBlank c then (closeByte acc digits).map fun a => ([], .inBraces a [])
    else if c.toNat = braceClose then (closeByte acc digits).map fun a => ([.bytes a.reverse], .between)
    else (hexDigit c).map fun d => ([], .inBraces acc (d :: digits))
  | .dash => if c.toNat = 45 then some ([], .inComment) else none
  | .inComment => some ([], .inComment)

/-- Reads the rest of a line. -/
def lexLine : LexMode → List Char → Option (List Token)
  | .between, [] => some []
  | .inComment, [] => some []
  | .inWord acc, [] => some [.word acc.reverse]
  | .inQuotes _, [] => none
  | .inBraces _ _, [] => none
  | .dash, [] => none
  | m, c :: cs =>
    match lexChar m c with
    | some (ts, m') => (lexLine m' cs).map (ts ++ ·)
    | none => none

/-- Adds a digit of the given base. -/
def addDigit (base : Nat) (n : Option Nat) (c : Char) : Option Nat :=
  match n, hexDigit c with
  | some n, some d => if d < base then some (base * n + d) else none
  | _, _ => none

/-- A number: decimal, or hexadecimal after `0x` (R82). -/
def readNumber : List Char → Option Nat
  | [] => none
  | [c] => addDigit 10 (some 0) c
  | c :: x :: cs =>
    if c.toNat = 48 ∧ x.toNat = 120 then
      if cs.isEmpty then none else cs.foldl (addDigit 16) (some 0)
    else (c :: x :: cs).foldl (addDigit 10) (some 0)

/-- A number that fits `w` bits. -/
def readBits (w : Nat) (cs : List Char) : Option (BitVec w) :=
  match readNumber cs with
  | some n => if n < 2 ^ w then some (BitVec.ofNat w n) else none
  | none => none

/-- The operation a line's tokens name, pseudo-operations expanded (R82, R83). DEC.DRAIN is a host loop and no
operation. -/
def parseLine (ts : List Token) : Option (List Instr) :=
  match ts with
  | [] => some []
  | [.word m] =>
    if m = ['C', 'R', 'C', '.', 'I', 'N', 'I', 'T'] then some [.crcInit]
    else if m = ['C', 'R', 'C', '.', 'F', 'I', 'N', 'A', 'L'] then some [.crcFinal]
    else if m = ['D', 'E', 'C', '.', 'S', 'T', 'E', 'P'] then some [.decStep]
    else if m = ['D', 'E', 'C', '.', 'R', 'E', 'S', 'E', 'T'] then some [.decReset]
    else none
  | [.word m, .word n] =>
    if m = ['C', 'R', 'C', '.', 'U', 'P', 'D', 'A', 'T', 'E'] then (readBits 8 n).map fun b => [.crcUpdate b]
    else if m = ['E', 'N', 'C', '.', 'E', 'N', 'D'] then (readBits 16 n).map fun id => [pseudoEncEnd id]
    else if m = ['E', 'N', 'C', '.', 'A', 'C', 'K'] then (readBits 16 n).map fun id => [pseudoEncAck id]
    else if m = ['E', 'N', 'C', '.', 'N', 'A', 'C', 'K'] then (readBits 16 n).map fun id => [pseudoEncNack id]
    else none
  | [.word m, .bytes d] =>
    if m = ['C', 'R', 'C', '.', 'B', 'L', 'O', 'C', 'K'] then some [.crcBlock d]
    else if m = ['C', 'R', 'C', '.', 'O', 'F'] then some [pseudoCrcOf d]
    else if m = ['D', 'E', 'C', '.', 'P', 'U', 'S', 'H'] then some [.decPush d]
    else none
  | [.word m, .word n, .comma, .word k] =>
    if m = ['E', 'N', 'C', '.', 'S', 'T', 'A', 'R', 'T'] then
      match readBits 16 n, readBits 32 k with
      | some id, some size => some [pseudoEncStart id size]
      | _, _ => none
    else none
  | [.word m, .word n, .comma, .bytes d] =>
    if m = ['E', 'N', 'C', '.', 'C', 'H', 'U', 'N', 'K'] then (readBits 16 n).map fun id => [pseudoEncChunk id d]
    else none
  | [.word m, .word c, .comma, .word n, .comma, .bytes d] =>
    if m = ['E', 'N', 'C', '.', 'F', 'R', 'A', 'M', 'E'] then
      match readBits 8 c, readBits 16 n with
      | some cmd, some id => some [.encFrame cmd id d]
      | _, _ => none
    else none
  | _ => none

/-- The operations of one line of a program: none for a blank or comment line; `none` for a line that is not of R82's
forms. -/
def assembleLine (line : List Char) : Option (List Instr) :=
  match lexLine .between line with
  | some ts => parseLine ts
  | none => none

end Sys2Proof.Machine
end

