-- ==== Sys2Proof/Machine/Flags.lean ====
section
/-! DEFINITION. The block has no flags, condition codes or predicates (10_state.md rule R27). What a host reads instead
are the numbers of the results and refusals (30_encoding.md R79, 60_exceptions.md R201, R202). -/

namespace Sys2Proof.Machine

/-- The status number of a DEC.STEP result (R79, R201): 0 is FRAME and 1 is NEED_MORE_DATA. Other results have none. -/
def Result.status : Result → Option Nat
  | .completed => none
  | .crc _ => none
  | .bytes _ => none
  | .frame _ => some 0
  | .needMoreData => some 1
  | .held _ => none

/-- The code of a refusal (R202). An instruction without a meaning, which R202 does not know, has none. -/
def Refusal.code : Refusal → Option Nat
  | .illegalOp _ => some 1
  | .payloadTooLong _ => some 2
  | _ => none

end Sys2Proof.Machine
end

