-- ==== Sys2Proof/Tests/Slice0.lean ====
section
/-! SUPPORT. Tests. Expected values come from 95_test_vectors.md and the rules' own examples; the magic 0x12345678 is that
file's test choice, not the real sentinel. The second part shows, for each statement that has hypotheses, a state and
operands that meet them. -/

namespace Sys2Proof.Tests

open Sys2Proof Sys2Proof.Machine

/-- An instance with the test magic and no limit on `buf`. -/
def inst (buf : List Byte) : State := { State.resetOf ⟨0x12345678, none⟩ with buf := buf }

/-- An instance with the test magic and a finite capacity. -/
def instCap (cap : Nat) (buf : List Byte) : State := { State.resetOf ⟨0x12345678, some cap⟩ with buf := buf }

/-- E1 of section 3.1. -/
def ack1 : List Byte :=
  [0x78, 0x56, 0x34, 0x12, 0x01, 0x04, 0x01, 0x00, 0x00, 0x00, 0x00, 0x00, 0x9F, 0x99, 0x0F, 0xD9]

/-- E2. -/
def ack2 : List Byte :=
  [0x78, 0x56, 0x34, 0x12, 0x01, 0x04, 0x02, 0x00, 0x00, 0x00, 0x00, 0x00, 0x31, 0xEB, 0x9B, 0x5F]

/-- E3. -/
def start1 : List Byte := [0x78, 0x56, 0x34, 0x12, 0x01, 0x01, 0x01, 0x00, 0x04, 0x00, 0x00, 0x00, 0xB8, 0x0B, 0x00, 0x00,
  0x02, 0xF0, 0xBC, 0x6F]

/-- E4. -/
def end5 : List Byte :=
  [0x78, 0x56, 0x34, 0x12, 0x01, 0x03, 0x05, 0x00, 0x00, 0x00, 0x00, 0x00, 0x07, 0xE5, 0x39, 0x87]

/-- E5. -/
def nackFFFF : List Byte :=
  [0x78, 0x56, 0x34, 0x12, 0x01, 0x05, 0xFF, 0xFF, 0x00, 0x00, 0x00, 0x00, 0xCE, 0x2D, 0x84, 0x9A]

/-- E6. -/
def unk : List Byte :=
  [0x78, 0x56, 0x34, 0x12, 0x01, 0xFF, 0x34, 0x12, 0x00, 0x00, 0x00, 0x00, 0x40, 0xA5, 0xE1, 0xF1]

/-- E8. -/
def chunk2 : List Byte :=
  [0x78, 0x56, 0x34, 0x12, 0x01, 0x02, 0x02, 0x00, 0x03, 0x00, 0x00, 0x00, 0x41, 0x42, 0x43, 0x81, 0x86, 0x8B, 0x60]

/-- E9, whose payload contains the magic. -/
def chunk3 : List Byte := [0x78, 0x56, 0x34, 0x12, 0x01, 0x02, 0x03, 0x00, 0x05, 0x00, 0x00, 0x00, 0x78, 0x56, 0x34, 0x12,
  0xEE, 0x67, 0x80, 0xBC, 0xC8]

/-- `V7` of section 3.1: version 7, a correct checksum. -/
def version7 : List Byte :=
  [0x78, 0x56, 0x34, 0x12, 0x07, 0x04, 0x09, 0x00, 0x00, 0x00, 0x00, 0x00, 0x75, 0x12, 0x33, 0xF3]

/-- `buf` and the results after one instruction. -/
def after (i : Instr) (s : State) : Option (List Byte × List Result) :=
  match exec i s with
  | .next t => some (t.buf, t.results)
  | .fault _ => none
  | .refused _ => none

/-- `crc_state` and the results after some instructions. -/
def crcAfter (is : List Instr) (s : State) : Option (Word × List Result) :=
  match execAll is s with
  | .next t => some (t.crcState, t.results)
  | .fault _ => none
  | .refused _ => none

/-- `buf` and the results after one step. -/
def stepped (s : State) : Option (List Byte × List Result) :=
  match step s with
  | .next t => some (t.buf, t.results)
  | .fault _ => none
  | .refused _ => none

/-- The code and content of a step's refusal. -/
def stepRefusal (s : State) : Option Refusal :=
  match step s with
  | .next _ => none
  | .fault _ => none
  | .refused r => some r

/-- Section 3.2's record of ACK1. -/
def ack1Frame : Frame := ⟨1, .ack, 1, 0, [], 16⟩

/-! ### Well-formedness -/

/-- 2^32 bytes are one too many for a `u32` length. -/
theorem long_refused : dataFits (List.replicate (2 ^ 32) (0 : Byte)) = false := by
  rw [dataFits, List.length_replicate]
  decide

/-- The four shapes R74 and R64 leave without an encoding. -/
theorem test_wellFormed_refuses_long_crcBlock : wellFormed (.crcBlock (List.replicate (2 ^ 32) 0)) = false :=
  long_refused
theorem test_wellFormed_refuses_long_encFrame : wellFormed (.encFrame 4 1 (List.replicate (2 ^ 32) 0)) = false :=
  long_refused
theorem test_wellFormed_refuses_long_decPush : wellFormed (.decPush (List.replicate (2 ^ 32) 0)) = false :=
  long_refused
theorem test_wellFormed_refuses_named_unknown :
    wellFormed (.frameUnknown 0x01) = false ∧ wellFormed (.frameUnknown 0x05) = false := by decide
theorem test_wellFormed_accepts :
    wellFormed (.frameUnknown 0x00) = true ∧ wellFormed (.frameUnknown 0x06) = true ∧ wellFormed (.decPush []) = true := by
  decide

/-! ### Decoding (section 4, R84; bits as R75 lays them out) -/

theorem test_decode_crcInit : decodeTableWord 32 0b00000001_00000000_00000000_00000000 = some .crcInit := by decide
theorem test_decode_crcUpdate : decodeTableWord 32 0b00000010_00000000_00000000_00110001 = some (.crcUpdate 0x31) := by
  decide
theorem test_decode_crcFinal : decodeTableWord 32 0b00000011_00000000_00000000_00000000 = some .crcFinal := by decide
theorem test_decode_crcBlock : decodeTableWord 32 0b00000100_00000000_00000000_00000000 = some (.crcBlock []) := by decide
theorem test_decode_encFrame :
    decodeTableWord 32 0b00010000_11111111_00010010_00110100 = some (.encFrame 0xFF 0x1234 []) := by decide
theorem test_decode_decPush : decodeTableWord 32 0b00100000_00000000_00000000_00000000 = some (.decPush []) := by decide
theorem test_decode_decStep : decodeTableWord 32 0b00100001_00000000_00000000_00000000 = some .decStep := by decide
theorem test_decode_decReset : decodeTableWord 32 0b00100010_00000000_00000000_00000000 = some .decReset := by decide
theorem test_decode_startUpgrade : decodeTableWord 8 0b00000001 = some .frameStartUpgrade := by decide
theorem test_decode_transferChunk : decodeTableWord 8 0b00000010 = some .frameTransferChunk := by decide
theorem test_decode_endUpgrade : decodeTableWord 8 0b00000011 = some .frameEndUpgrade := by decide
theorem test_decode_ack : decodeTableWord 8 0b00000100 = some .frameAck := by decide
theorem test_decode_nack : decodeTableWord 8 0b00000101 = some .frameNack := by decide
theorem test_decode_unknown : decodeTableWord 8 0b11111111 = some (.frameUnknown 0xFF) ∧
    decodeTableWord 8 0 = some (.frameUnknown 0) := by decide

/-- Section 4's illegal words, refused with the word recorded (R202). -/
theorem test_step_refuses_illegal_words :
    ([0x00000000, 0x01000001, 0x02FF0031, 0x21000100, 0x23000000, 0xFF000000] : List Word).map
      (fun w => stepRefusal { inst [] with issued := le32 w }) =
    ([0x00000000, 0x01000001, 0x02FF0031, 0x21000100, 0x23000000, 0xFF000000] : List Word).map
      (fun w => some (.illegalOp w)) := by decide +kernel
theorem test_refusal_codes : (Refusal.illegalOp 0).code = some 1 ∧ (Refusal.payloadTooLong 0).code = some 2 ∧
    (Result.frame ack1Frame).status = some 0 ∧ Result.needMoreData.status = some 1 := by decide

/-! ### CRCU (sections 2.1 to 2.3) -/

theorem test_crc32_vectors : crc32 [0x61, 0x62, 0x63] = 0x352441C2 ∧ crc32 [0, 0, 0, 0] = 0x2144DF1C ∧
    crc32 [0x54, 0x68, 0x65, 0x20, 0x71, 0x75, 0x69, 0x63, 0x6B, 0x20, 0x62, 0x72, 0x6F, 0x77, 0x6E, 0x20, 0x66, 0x6F,
      0x78, 0x20, 0x6A, 0x75, 0x6D, 0x70, 0x73, 0x20, 0x6F, 0x76, 0x65, 0x72, 0x20, 0x74, 0x68, 0x65, 0x20, 0x6C,
      0x61, 0x7A, 0x79, 0x20, 0x64, 0x6F, 0x67] =
      0x414FA339 := by decide +kernel
/-- Section 2.2's steps for "1", "2", "3". -/
theorem test_crcUpdate_steps :
    crcAfter [.crcInit, .crcUpdate 0x31] (inst []) = some (0x7C231048, [.completed, .completed]) ∧
    crcAfter [.crcInit, .crcUpdate 0x31, .crcUpdate 0x32, .crcUpdate 0x33] (inst []) =
      some (0x77B79C2D, [.completed, .completed, .completed, .completed]) := by decide +kernel
theorem test_crcUpdate_corner : crcUpdate 0xFFFFFFFF 0xFF = 0x00FFFFFF := by decide +kernel
/-- R105's example. -/
theorem test_crcInit : crcAfter [.crcInit] { inst [] with crcState := 0x340BC6D9 } = some (0xFFFFFFFF, [.completed]) := by
  decide +kernel
/-- R107's example. -/
theorem test_crcFinal : crcAfter [.crcFinal] { inst [] with crcState := 0x340BC6D9 } =
    some (0x340BC6D9, [.crc 0xCBF43926]) := by decide +kernel
theorem test_crcBlock : crcAfter [.crcBlock [0x31, 0x32, 0x33, 0x34, 0x35, 0x36, 0x37, 0x38, 0x39]]
    { inst [] with crcState := 0x12345678 } = some (0x12345678, [.crc 0xCBF43926]) := by decide +kernel
/-- Section 2.3. -/
theorem test_table : crcTableAt 0x01 = 0x77073096 ∧ crcTableAt 0x80 = 0xEDB88320 ∧ crcTableAt 0xFF = 0x2D02EF8D := by
  decide +kernel

/-! ### ENC (section 3.1) -/

theorem test_encFrame_ack1 : after (.encFrame 0x04 1 []) (inst [0xEE]) = some ([0xEE], [.bytes ack1]) := by decide +kernel
theorem test_encFrame_vectors :
    [encodeFrame 0x12345678 0x01 1 (le32 3000), encodeFrame 0x12345678 0x03 5 [], encodeFrame 0x12345678 0x05 0xFFFF [],
      encodeFrame 0x12345678 0xFF 0x1234 [], encodeFrame 0x12345678 0x02 3 [0x78, 0x56, 0x34, 0x12, 0xEE]] =
    [start1, end5, nackFFFF, unk, chunk3] := by decide +kernel

/-! ### DEC (sections 3.2 to 3.6) -/

/-- R150's example. -/
theorem test_decPush : after (.decPush [0x34, 0x12]) (inst [0x78, 0x56]) =
    some ([0x78, 0x56, 0x34, 0x12], [.completed]) := by decide
/-- R151 at the edge: the fourth byte fits, the fifth is held with the whole push. -/
theorem test_decPush_held : after (.decPush [3, 4]) (instCap 4 [1, 2]) = some ([1, 2, 3, 4], [.completed]) ∧
    after (.decPush [3, 4, 5]) (instCap 4 [1, 2]) = some ([1, 2], [.held .bufFull]) := by decide
/-- R152's example. -/
theorem test_decReset : after .decReset (inst [0x78, 0x56, 0x34, 0x12, 0xEE]) = some ([], [.completed]) := by decide
/-- V1, V3, V4, V5, V6, V8. -/
theorem test_decStep_waits :
    ([[], [0x78, 0x56, 0x34], [0x00, 0x11, 0x22], [0x00, 0x78, 0x56], [0x78, 0x56, 0x34, 0x13], ack1.take 12] :
      List (List Byte)).map (fun b => after .decStep (inst b)) =
    ([[], [0x78, 0x56, 0x34], [], [0x78, 0x56], [], ack1.take 12] : List (List Byte)).map
      (fun b => some (b, [.needMoreData])) := by decide +kernel
/-- V11, V13, V16, V19, V22, V15, V21. -/
theorem test_decStep_frames :
    after .decStep (inst ([0xAA, 0xBB] ++ ack1)) = some ([], [.frame ack1Frame]) ∧
    after .decStep (inst (ack1 ++ [0xAA, 0x78])) = some ([0xAA, 0x78], [.frame ack1Frame]) ∧
    after .decStep (inst (ack1 ++ chunk2)) = some (chunk2, [.frame ack1Frame]) ∧
    after .decStep (inst version7) = some ([], [.frame ⟨7, .ack, 9, 0, [], 16⟩]) ∧
    after .decStep (inst chunk3) = some ([], [.frame ⟨1, .transferChunk, 3, 5, [0x78, 0x56, 0x34, 0x12, 0xEE], 21⟩]) ∧
    after .decStep (inst (flipBit chunk2 12 0 ++ ack2)) = some ([], [.frame ⟨1, .ack, 2, 0, [], 16⟩]) ∧
    after .decStep (inst (flipBit ack1 8 0 ++ ack2)) = some ([], [.frame ⟨1, .ack, 2, 0, [], 16⟩]) := by decide +kernel
/-- V20, V23, V30: the stalls. -/
theorem test_decStep_stalls :
    after .decStep (inst (flipBit ack1 11 7)) = some (flipBit ack1 11 7, [.needMoreData]) ∧
    after .decStep (inst (flipBit chunk3 6 0)) =
      some ([0x78, 0x56, 0x34, 0x12, 0xEE, 0x67, 0x80, 0xBC, 0xC8], [.needMoreData]) ∧
    after .decStep { inst (0x41 :: encodeFrame 0x41414141 0x02 2 [0x41, 0x42, 0x43]) with build := ⟨0x41414141, none⟩ } =
      some (0x41 :: encodeFrame 0x41414141 0x02 2 [0x41, 0x42, 0x43], [.needMoreData]) := by decide +kernel

/-! ### The frame command bytes (R64, R65, section 3.5) -/

theorem test_row_startUpgrade : after .frameStartUpgrade (inst start1) =
    some ([], [.frame ⟨1, .startUpgrade, 1, 4, [0xB8, 0x0B, 0, 0], 20⟩]) := by decide +kernel
theorem test_row_transferChunk : after .frameTransferChunk (inst chunk2) =
    some ([], [.frame ⟨1, .transferChunk, 2, 3, [0x41, 0x42, 0x43], 19⟩]) := by decide +kernel
theorem test_row_endUpgrade : after .frameEndUpgrade (inst end5) = some ([], [.frame ⟨1, .endUpgrade, 5, 0, [], 16⟩]) := by
  decide +kernel
theorem test_row_ack : after .frameAck (inst (ack1 ++ [0xAA])) = some ([0xAA], [.frame ack1Frame]) := by decide +kernel
theorem test_row_nack : after .frameNack (inst nackFFFF) = some ([], [.frame ⟨1, .nack, 0xFFFF, 0, [], 16⟩]) := by
  decide +kernel
theorem test_row_unknown : after (.frameUnknown 0xFF) (inst unk) =
    some ([], [.frame ⟨1, .unknown 0xFF, 0x1234, 0, [], 16⟩]) := by decide +kernel
/-- A row whose byte the frame at the front does not carry has no effect. -/
theorem test_row_elsewhere : after .frameNack (inst ack1) = some (ack1, []) ∧ after .frameAck (inst []) = some ([], []) := by
  decide +kernel

/-! ### Steps -/

/-- The block waits at reset (R232). -/
theorem test_step_waits : step State.reset = .next State.reset := rfl
/-- A data operand that has not all arrived is not issued. -/
theorem test_step_waits_for_data : stepped { inst [] with issued := [0, 0, 0, 0x20, 2, 0, 0, 0, 0xAA] } = some ([], []) := by
  decide +kernel
/-- Step 4 of program P3, as issued bytes. -/
theorem test_step_push : stepped { inst [] with issued := [0, 0, 0, 0x20, 2, 0, 0, 0, 0xAA, 0xBB, 0, 0, 0, 0x21] } =
    some ([0xAA, 0xBB], [.completed]) := by decide +kernel
/-- A placed command byte is surfaced by the next step. -/
theorem test_withFetchWord_ack : stepped ((inst []).withFetchWord 8 4) = some ([], [.frame ⟨1, .ack, 0, 0, [], 16⟩]) := by
  decide +kernel
theorem test_withFetchWord_encFrame : stepped ((inst []).withFetchWord 32 0x10040001) = some ([], [.bytes ack1]) := by
  decide +kernel
/-- P2, steps 5 to 7, as the host's loop (R83). -/
theorem test_drain : (drain (inst ([0xAA, 0xBB] ++ ack1 ++ chunk2))).1 =
    [ack1Frame, ⟨1, .transferChunk, 2, 3, [0x41, 0x42, 0x43], 19⟩] := by decide +kernel

/-! ### The textual syntax (R82, R83) -/

theorem test_assemble_update : assembleLine "CRC.UPDATE 0x31 -- one".toList = some [.crcUpdate 0x31] := by decide +kernel
theorem test_assemble_encFrame : assembleLine "ENC.FRAME 0xFF, 4660, \"AB\"".toList =
    some [.encFrame 0xFF 0x1234 [0x41, 0x42]] := by decide +kernel
theorem test_assemble_start : assembleLine "ENC.START 1, 3000".toList =
    some [.encFrame 0x01 1 [0xB8, 0x0B, 0x00, 0x00]] := by decide +kernel
theorem test_assemble_push : assembleLine ("DEC.PUSH ".toList ++ [Char.ofNat 123] ++ "34 1e".toList ++ [Char.ofNat 125]) =
    some [.decPush [0x34, 0x1E]] := by decide +kernel
theorem test_assemble_blank : assembleLine "  -- nothing".toList = some [] ∧ assembleLine "CRC.INIT 1".toList = none := by
  decide +kernel

/-! ### Witnesses: for each statement with hypotheses, a state and operands that meet them -/

theorem witness_StepRunsTheDecodedOperation :
    decode { inst [] with issued := [0, 0, 0, 0x21, 0xAA] }.issued = .ok .decStep [0xAA] := by decide
theorem witness_StepRefusesExactlyIllegalOpWords :
    ({ inst [] with issued := [1, 0, 0, 1] } : State).issued = le32 0x01000001 ++ [] ∧ IllegalOpWord 0x01000001 ∧
    IllegalOpWord 0x02000100 ∧ IllegalOpWord 0 ∧ ¬ IllegalOpWord 0x020000FF ∧ ¬ IllegalOpWord 0x10FFFFFF := by
  decide +kernel
theorem witness_StepWaitsForAWholeOperation :
    (inst []).issued = [] ∧ decode { inst [] with issued := [0, 0, 0, 0x20, 1, 0, 0, 0] }.issued = .incomplete := by decide
theorem witness_DecodeOfEncodedOperation :
    isOperation (.encFrame 0xFF 0xFFFF [1, 2]) = true ∧ wellFormed (.encFrame 0xFF 0xFFFF [1, 2]) = true := by decide
theorem witness_DecodedOperationReencodes :
    decode [0, 0, 0, 0x04, 1, 0, 0, 0, 0xAA, 0xBB] = .ok (.crcBlock [0xAA]) [0xBB] := by decide
theorem witness_CommandByteRowsRoundTrip :
    isOperation (.frameUnknown 0x06) = false ∧ wellFormed (.frameUnknown 0x06) = true := by decide
theorem witness_SingleBitFlipChangesTheCrc : (0 < [0x00#8].length) ∧ (7 < 8) := by decide
theorem witness_EncFrameReturnsTheFrame : ([1, 2, 3] : List Byte).length < 2 ^ 32 := by decide
theorem witness_EncFrameRefusesOversizePayload : 2 ^ 32 ≤ (List.replicate (2 ^ 32) (0 : Byte)).length := by
  rw [List.length_replicate]
theorem witness_EncFrameByteOrder :
    ([] : List Byte).length < 2 ^ 32 ∧ 3 < 4 ∧ 1 < 2 ∧ ([7] : List Byte).length < 2 ^ 32 ∧ 0 < ([7] : List Byte).length := by
  decide
theorem witness_EncFrameFieldsReadBack : ([0xFF] : List Byte).length < 2 ^ 32 := by decide
theorem witness_EncFrameDependsOnlyOnItsOperands :
    ([1] : List Byte).length < 2 ^ 32 ∧ (inst []).build.magic = (instCap 4 [9]).build.magic := by decide
theorem fits_inst (buf : List Byte) (n : Nat) : (inst buf).Fits n := by
  intro cap h
  cases h
theorem fits_instCap {cap n : Nat} {buf : List Byte} (h : buf.length + n ≤ cap) : (instCap cap buf).Fits n := by
  intro c hc
  cases hc
  exact h
theorem witness_DecPushAppendsOrIsHeld : (instCap 4 [1, 2]).Fits ([3, 4] : List Byte).length ∧
    (instCap 4 [1, 2]).build.bufCap = some 4 ∧ 4 < (instCap 4 [1, 2]).buf.length + ([3, 4, 5] : List Byte).length :=
  ⟨fits_instCap (by decide), rfl, by decide⟩
theorem witness_OnlyAnOverfullPushIsHeld :
    exec (.decPush [3]) (instCap 2 [1, 2]) = .next ((instCap 2 [1, 2]).respond (.held .bufFull)) ∧
    ∀ cap, (instCap 2 [1, 2]).build.bufCap = some cap → ([3, 4] : List Byte).length ≤ cap := by
  refine ⟨rfl, fun cap h => ?_⟩
  cases h
  decide
theorem witness_DecStepDiscardsOneByteAndRescans : MagicMiss 0x12345678 (inst [0x77]).buf ∧
    MagicMiss 0x12345678 (inst [0x78, 0x56, 0x34, 0x13]).buf ∧
    SpuriousAtFront 0x12345678 (inst (flipBit ack1 12 0)).buf := by decide +kernel
theorem witness_DecStepKeepsAnIncompleteFrame : ResidueMagic 0x12345678 (inst []).buf ∧
    ResidueMagic 0x12345678 (inst (ack1.take 3)).buf ∧ ResidueHeader 0x12345678 (inst (ack1.take 4)).buf ∧
    ResidueHeader 0x12345678 (inst (ack1.take 11)).buf ∧ ResidueFrame 0x12345678 (inst (ack1.take 12)).buf ∧
    ResidueFrame 0x12345678 (inst (ack1.take 15)).buf := by decide +kernel
theorem witness_DecStepReturnsTheFrameAtFront : FrameAtFront 0x12345678 (inst ack1).buf ∧
    FrameAtFront 0x12345678 (inst (chunk3 ++ [1])).buf := by decide +kernel
theorem witness_DecStepDependsOnlyOnBufAndMagic : (inst ack1).buf = (instCap 99 ack1).buf ∧
    (inst ack1).build.magic = (instCap 99 ack1).build.magic ∧ inst ack1 ≠ instCap 99 ack1 := by decide
theorem witness_DiscardingSkipsNoFrame : (after .decStep (inst ([0xAA] ++ ack1))).isSome = true ∧
    1 < (inst ([0xAA] ++ ack1)).buf.length ∧ FrameAtFront 0x12345678 ((inst ([0xAA] ++ ack1)).buf.drop 1) := by
  decide +kernel
theorem witness_NeedMoreDataLeavesAResidue :
    (after .decStep (inst [0x00, 0x78]) = some ([0x78], (inst []).results ++ [.needMoreData]) ∧
      ResidueMagic 0x12345678 [0x78]) ∧
    (after .decStep (inst (ack1.take 11)) = some (ack1.take 11, (inst []).results ++ [.needMoreData]) ∧
      ResidueHeader 0x12345678 (ack1.take 11)) ∧
    (after .decStep (inst (ack1.take 15)) = some (ack1.take 15, (inst []).results ++ [.needMoreData]) ∧
      ResidueFrame 0x12345678 (ack1.take 15)) := by decide +kernel
theorem witness_NeedMoreDataIsAFixedPoint :
    after .decStep (inst [0x00, 0x78]) = some ([0x78], (inst []).results ++ [.needMoreData]) := by decide +kernel
theorem witness_DecodedFrameIsTheEncodedOne :
    ([0x41] : List Byte).length < 2 ^ 32 ∧ (instCap 17 []).buf = [] ∧ (instCap 17 []).Fits (16 + ([0x41] : List Byte).length) :=
  ⟨by decide, rfl, fits_instCap (by decide)⟩
/-- Two messages and the bytes they make. -/
def twoMessages : List Message := [⟨0x04, 1, []⟩, ⟨0x02, 2, [0x41, 0x42, 0x43]⟩]
theorem witness_AbuttingFramesDrainInOrder : (∀ m ∈ twoMessages, m.Fits) ∧ (inst []).buf = [] ∧
    wireAll 0x12345678 twoMessages = ack1 ++ chunk2 ∧ (inst []).Fits (ack1 ++ chunk2).length :=
  ⟨by decide, rfl, by decide +kernel, fits_inst _ _⟩
theorem witness_PartialDeliveryYieldsOneFrame : (⟨0x04, 1, []⟩ : Message).Fits ∧
    [ack1.take 1, ack1.drop 1].flatten = (⟨0x04, 1, []⟩ : Message).wire 0x12345678 ∧
    (∀ p ∈ [ack1.take 1, ack1.drop 1], p ≠ []) ∧ (inst []).Fits ack1.length ∧ 1 < [ack1.take 1, ack1.drop 1].length :=
  ⟨by decide, by decide +kernel, by decide, fits_inst _ _, by decide⟩
theorem occursAt_past {magic : Word} {bs : List Byte} {j : Nat} (h : bs.length < j + 4) : occursAt magic bs j = false := by
  have hl : (slice bs j (j + 4)).length ≠ (le32 magic).length := by
    simp only [slice, List.length_drop, List.length_take, le32, List.length_cons, List.length_nil]
    omega
  simpa [occursAt] using fun e => hl (congrArg List.length e)
theorem witness_GarbageAroundAFrameIsDiscarded : (⟨0x04, 1, []⟩ : Message).Fits ∧ (inst []).Fits 20 ∧
    (∀ j, j < [0xAA#8, 0x78#8].length →
      occursAt 0x12345678 ([0xAA, 0x78] ++ (⟨0x04, 1, []⟩ : Message).wire 0x12345678) j = false) ∧
    ∀ j, occursAt 0x12345678 [0xAA, 0x78] j = false :=
  ⟨by decide, fits_inst _ _, by decide +kernel, fun j => occursAt_past (by simp)⟩
theorem witness_FlippedBitIsRejected : (⟨0x02, 2, [0x41, 0x42, 0x43]⟩ : Message).Fits ∧
    (⟨0x02, 2, [0x41, 0x42, 0x43]⟩ : Message).wire 0x12345678 = chunk2 ∧ 18 < chunk2.length ∧
    (∀ k ∈ [0, 3, 4, 7, 12, 18], k < chunk2.length ∧ (k < 8 ∨ 12 ≤ k)) ∧
    (∀ k ∈ [8, 11], 8 ≤ k ∧ k < 12 ∧ (rdLe32 (flipBit chunk2 k 7) 8).toNat ≠ 3) ∧
    (inst (flipBit chunk2 11 7)).buf.length < 16 + (rdLe32 (flipBit chunk2 11 7) 8).toNat ∧
    (inst (flipBit chunk2 8 3)).buf.length < 16 + (rdLe32 (flipBit chunk2 8 3) 8).toNat ∧
    16 + (rdLe32 (flipBit chunk2 8 0) 8).toNat ≤ (inst (flipBit chunk2 8 0)).buf.length ∧
    crc32 ((flipBit chunk2 8 0).take (12 + (rdLe32 (flipBit chunk2 8 0) 8).toNat)) ≠
      rdLe32 (flipBit chunk2 8 0) (12 + (rdLe32 (flipBit chunk2 8 0) 8).toNat) := by decide +kernel
/-- V23's header, which declares 0x345678C8 bytes once ACK1 follows it. -/
def spuriousHeader : List Byte := [0x78, 0x56, 0x34, 0x12, 0xEE, 0x67, 0x80, 0xBC, 0xC8, 0x78, 0x56, 0x34]
theorem witness_StallLastsUntilTheDeclaredLength : (inst spuriousHeader).buf.take 4 = le32 0x12345678 ∧
    12 ≤ (inst spuriousHeader).buf.length ∧ (inst spuriousHeader).Fits ([0x12] : List Byte).length ∧
    (inst spuriousHeader).buf.length + ([0x12] : List Byte).length < 16 + (rdLe32 (inst spuriousHeader).buf 8).toNat :=
  ⟨by decide, by decide, fits_inst _ _, by decide +kernel⟩
theorem witness_OversizeHeaderDeadlocksUntilReset : (instCap 16 spuriousHeader).Deadlocked ∧
    after (.decPush [0x12]) (instCap 16 spuriousHeader) = some (spuriousHeader ++ [0x12], [.completed]) :=
  ⟨⟨by decide, by decide, 16, rfl, by decide, by decide +kernel⟩, by decide +kernel⟩
theorem witness_CommandRowsSurfaceTheirFrame :
    (FrameAtFront 0x12345678 start1 ∧ byteAt start1 5 = 0x01) ∧ (FrameAtFront 0x12345678 chunk2 ∧ byteAt chunk2 5 = 0x02) ∧
    (FrameAtFront 0x12345678 end5 ∧ byteAt end5 5 = 0x03) ∧ (FrameAtFront 0x12345678 ack1 ∧ byteAt ack1 5 = 0x04) ∧
    (FrameAtFront 0x12345678 nackFFFF ∧ byteAt nackFFFF 5 = 0x05) ∧
    ∀ c ∈ ([0x00, 0x06, 0xFF] : List Byte), FrameAtFront 0x12345678 (Message.wire 0x12345678 ⟨c, 1, []⟩) ∧
      byteAt (Message.wire 0x12345678 ⟨c, 1, []⟩) 5 = c ∧ c ∉ ([1, 2, 3, 4, 5] : List Byte) := by
  decide +kernel
theorem witness_CommandRowsElsewhereDoNothing : ¬ (FrameAtFront 0x12345678 (inst ack1).buf ∧ byteAt (inst ack1).buf 5 = 0x05) ∧
    ¬ (FrameAtFront 0x12345678 (inst [0x78]).buf ∧ byteAt (inst [0x78]).buf 5 = 0x00) := by decide +kernel
theorem witness_DecStepRunsTheCommandRow : FrameAtFront 0x12345678 (inst ack1).buf := by decide +kernel
theorem witness_CommandByteMapIsTotal : (0x06 : Byte) ∉ ([0x01, 0x02, 0x03, 0x04, 0x05] : List Byte) := by decide
theorem witness_OnlyCrcInitAndUpdateWriteCrcState :
    exec .crcInit { inst [] with crcState := 0 } = .next ((inst []).respond .completed) ∧
    ((inst []).respond .completed).crcState ≠ ({ inst [] with crcState := 0 } : State).crcState := ⟨rfl, by decide⟩
theorem witness_BufferGrowsAtTheBackAndShrinksAtTheFront : (after .decReset (inst [1, 2])).isSome = true ∧
    (after .frameAck (inst ack1)).isSome = true ∧ (after (.decPush [1]) (instCap 0 [])).isSome = true := by decide +kernel
theorem witness_StepKeepsBufferWithinCapacity : (instCap 2 [1, 2]).withinCap = true ∧
    stepped { instCap 2 [1, 2] with issued := [0, 0, 0, 0x20, 1, 0, 0, 0, 3] } = some ([1, 2], [.held .bufFull]) := by
  decide +kernel
theorem witness_StepKeepsTheBuildParameters : (stepped { inst [] with issued := [0, 0, 0, 0x22] }).isSome = true := by
  decide +kernel
theorem witness_EveryOperationReturnsOneResult : isOperation .decStep = true ∧ (after .decStep (inst [])).isSome = true := by
  decide +kernel
theorem witness_OperationsOnDifferentUnitsCommute : isOperation (.crcUpdate 1) = true ∧ isOperation .decStep = true ∧
    unitOf (.crcUpdate 1) ≠ unitOf .decStep ∧ (crcAfter [.crcUpdate 1, .decStep] (inst ack1)).isSome = true := by
  decide +kernel
theorem witness_NoMagicMeansNoFrame : ∀ j, occursAt 0x12345678 (inst [0xAA, 0xBB, 0x78]).buf j = false :=
  fun j => occursAt_past (by simp [inst])

end Sys2Proof.Tests
end

/-! No operation, no command row and no step writes the build parameters (00_scope.md R8, 10_state.md R24). -/

namespace Sys2Proof.Machine

@[simp] theorem State.surface_build (s : State) (cmd : Command) : (s.surface cmd).build = s.build := rfl

@[simp] theorem State.commandRow_build (s : State) (code : Byte) (cmd : Command) :
    (s.commandRow code cmd).build = s.build := by
  obtain ⟨-, -, h⟩ | ⟨-, h⟩ := s.commandRow_cases code cmd
  · rw [h, State.surface_build]
  · rw [h]

@[simp] theorem rowUnknown_build (c : Byte) (s : State) : (rowUnknown c s).build = s.build := by
  unfold rowUnknown
  split
  · exact s.commandRow_build c (.unknown c)
  · rfl

@[simp] theorem State.settle_build (s : State) : s.settle.build = s.build := by
  by_cases h : FrameAtFront s.build.magic s.buf
  · rw [State.settle_accept h]
  · rw [State.settle_wait h, State.respond_build]

/-- A push writes `buf` and the results, or the results alone when it is held (R150, R151). -/
theorem execDecPush_build {d : List Byte} {s t : State} (h : execDecPush d s = .next t) : t.build = s.build := by
  cases h
  split
  · rw [State.respond_build, State.bufAppend_build]
  · rw [State.hold_build]

/-- ENC.FRAME reads the build for `MAGIC` and answers a next state only for a payload that fits (R130, R132). -/
theorem execEncFrame_build {cmd : Byte} {id : Half} {payload : List Byte} {s t : State}
    (h : execEncFrame cmd id payload s = .next t) : t.build = s.build := by
  unfold execEncFrame at h
  split at h
  · cases h
    rw [State.respond_build]
  · cases h

/-- The frame rule of every instruction for the build parameters. -/
theorem exec_build {i : Instr} {s t : State} (h : exec i s = .next t) : t.build = s.build := by
  cases i with
  | crcInit => cases h; simp
  | crcUpdate b => cases h; simp
  | crcFinal => cases h; simp
  | crcBlock d => cases h; simp
  | encFrame cmd id payload => exact execEncFrame_build h
  | decPush d => exact execDecPush_build h
  | decStep => cases h; simp
  | decReset => cases h; simp
  | frameStartUpgrade => cases h; exact s.commandRow_build _ _
  | frameTransferChunk => cases h; exact s.commandRow_build _ _
  | frameEndUpgrade => cases h; exact s.commandRow_build _ _
  | frameAck => cases h; exact s.commandRow_build _ _
  | frameNack => cases h; exact s.commandRow_build _ _
  | frameUnknown c => cases h; exact rowUnknown_build c s

/-- Everything a completed step can be: the issued operation run once it is taken, or the wait for a whole one that
changes nothing (R232). -/
theorem step_next_cases {s t : State} (h : step s = .next t) :
    (∃ i rest, fetch s = .ok i rest ∧ exec i (s.takeIssued rest) = .next t) ∨ (fetch s = .incomplete ∧ t = s) := by
  unfold step at h
  split at h
  case h_1 i rest hf => exact .inl ⟨i, rest, hf, h⟩
  case h_2 => cases h
  case h_3 hf => cases h; exact .inr ⟨hf, rfl⟩

end Sys2Proof.Machine

namespace Sys2Proof

open Sys2Proof.Machine

/-- Settles O56: a completed step runs one instruction, which keeps the build, or waits and keeps everything. -/
theorem stepKeepsTheBuildParameters : Obligations.StepKeepsTheBuildParameters := by
  intro s t h
  obtain ⟨i, rest, -, hi⟩ | ⟨-, rfl⟩ := step_next_cases h
  · rw [exec_build hi, State.takeIssued_build]
  · rfl

end Sys2Proof

/-! What a completed instruction can write, and the residue DEC.STEP leaves (10_state.md R20 to R22, R33, R34). -/

namespace Sys2Proof.Machine

/-- The host's next operation is taken from the issued bytes and run (R52). -/
theorem step_of_fetch {s : State} {i : Instr} {rest : List Byte} (h : fetch s = .ok i rest) :
    step s = exec i (s.takeIssued rest) := by
  rw [step, h]

/-- The remainder before the final exclusive or is what CRC.UPDATE has folded so far (R21, R102). -/
theorem crc32_xorOut (m : List Byte) : crc32 m ^^^ crcXorOut = crcFold crcInitValue m := by
  rw [crc32, BitVec.xor_assoc, BitVec.xor_self, BitVec.xor_zero]

/-- A run of CRC.UPDATEs folds its bytes into the remainder, whatever the remainder was. -/
theorem execAll_crcUpdates (s : State) (m : List Byte) : execAll (m.map .crcUpdate) s = .next { s with
    crcState := crcFold s.crcState m
    results := s.results ++ List.replicate m.length .completed } := by
  induction m generalizing s with
  | nil => simp [execAll, crcFold]
  | cons b m ih =>
    have hb : execAll ((b :: m).map .crcUpdate) s =
        execAll (m.map .crcUpdate) ((s.writeCrc (crcUpdate s.crcState b)).respond .completed) := rfl
    rw [hb, ih]
    simp [State.respond, State.writeCrc, crcFold, List.replicate_succ]

/-- A push appends and completes, or is held (R150, R151). -/
theorem execDecPush_next_cases {d : List Byte} {s t : State} (h : execDecPush d s = .next t) :
    t = (s.bufAppend d).respond .completed ∨ t = s.hold .bufFull := by
  cases h
  split
  · exact .inl rfl
  · exact .inr rfl

/-- ENC.FRAME that completes only answers (R130). -/
theorem execEncFrame_next {cmd : Byte} {id : Half} {payload : List Byte} {s t : State}
    (h : execEncFrame cmd id payload s = .next t) :
    t = s.respond (.bytes (encodeFrame s.build.magic cmd id payload)) := by
  unfold execEncFrame at h
  split at h
  · cases h; rfl
  · cases h

/-- Everything a command row can do as an instruction: surface a frame, or nothing (log entry 8). -/
theorem exec_commandRow_cases {i : Instr} {s t : State} (hi : isOperation i = false) (h : exec i s = .next t) :
    (∃ cmd, t = s.surface cmd) ∨ t = s := by
  have row (code : Byte) (cmd : Command) :
      (∃ cmd', s.commandRow code cmd = s.surface cmd') ∨ s.commandRow code cmd = s := by
    obtain ⟨-, -, hs⟩ | ⟨-, hs⟩ := s.commandRow_cases code cmd
    · exact .inl ⟨cmd, hs⟩
    · exact .inr hs
  cases i with
  | crcInit | crcUpdate _ | crcFinal | crcBlock _ | encFrame _ _ _ | decPush _ | decStep | decReset => cases hi
  | frameStartUpgrade | frameTransferChunk | frameEndUpgrade | frameAck | frameNack => cases h; exact row _ _
  | frameUnknown c =>
    cases h
    unfold rowUnknown
    split
    · exact row _ _
    · exact .inr rfl

/-- DEC.STEP only removes bytes from the front of `buf`, and returns one result (R22, R153). -/
theorem decStep_removes (s : State) : ∃ left r, left <:+ s.buf ∧
    s.afterDiscards.settle = { s with buf := left, results := s.results ++ [r] } := by
  have hscan := scan_suffix s.build.magic s.buf
  by_cases hf : FrameAtFront s.afterDiscards.build.magic s.afterDiscards.buf
  · exact ⟨_, _, (List.drop_suffix _ _).trans hscan, State.settle_accept hf⟩
  · exact ⟨_, _, hscan, State.settle_wait hf⟩

/-- Everything a completed instruction can write: `crc_state` by CRC.INIT and CRC.UPDATE, the back of `buf` by DEC.PUSH,
its front by DEC.STEP, DEC.RESET and the command rows, or a result alone; a command row may also do nothing. -/
theorem exec_next_cases {i : Instr} {s t : State} (h : exec i s = .next t) :
    ((i = .crcInit ∨ ∃ b, i = .crcUpdate b) ∧ ∃ v, t = (s.writeCrc v).respond .completed) ∨
    (∃ d, i = .decPush d ∧ t = (s.bufAppend d).respond .completed) ∨
    ((i = .decStep ∨ i = .decReset ∨ isOperation i = false) ∧
      ∃ left r, left <:+ s.buf ∧ t = { s with buf := left, results := s.results ++ [r] }) ∨
    (∃ r, t = s.respond r) ∨ t = s := by
  have row (hi : isOperation i = false) : (∃ left r, left <:+ s.buf ∧
      t = { s with buf := left, results := s.results ++ [r] }) ∨ t = s := by
    obtain ⟨cmd, ht⟩ | ht := exec_commandRow_cases hi h
    · exact .inl ⟨_, _, List.drop_suffix _ _, ht.trans (s.surface_eq cmd)⟩
    · exact .inr ht
  cases i with
  | crcInit => cases h; exact .inl ⟨.inl rfl, _, rfl⟩
  | crcUpdate b => cases h; exact .inl ⟨.inr ⟨b, rfl⟩, _, rfl⟩
  | crcFinal | crcBlock _ => cases h; exact .inr (.inr (.inr (.inl ⟨_, rfl⟩)))
  | encFrame cmd id payload => exact .inr (.inr (.inr (.inl ⟨_, execEncFrame_next h⟩)))
  | decPush d =>
    obtain ht | ht := execDecPush_next_cases h
    · exact .inr (.inl ⟨d, rfl, ht⟩)
    · exact .inr (.inr (.inr (.inl ⟨_, ht⟩)))
  | decStep => cases h; exact .inr (.inr (.inl ⟨.inl rfl, decStep_removes s⟩))
  | decReset => cases h; exact .inr (.inr (.inl ⟨.inr (.inl rfl), _, _, List.drop_suffix _ _, rfl⟩))
  | frameStartUpgrade | frameTransferChunk | frameEndUpgrade | frameAck | frameNack | frameUnknown _ =>
    obtain hs | ht := row rfl
    · exact .inr (.inr (.inl ⟨.inr (.inr rfl), hs⟩))
    · exact .inr (.inr (.inr (.inr ht)))

/-- Where DEC.STEP returns NEED_MORE_DATA, the loop has stopped to wait on the `buf` it leaves (R154, R155, R158). -/
theorem decStep_needMoreData_judge {s t : State} (h : exec .decStep s = .next t)
    (hr : t.results = s.results ++ [.needMoreData]) : judge t.build.magic t.buf = .wait := by
  cases h
  by_cases hf : FrameAtFront s.afterDiscards.build.magic s.afterDiscards.buf
  · rw [State.settle_accept hf] at hr
    simp at hr
  · have hacc : judge s.build.magic (scan s.build.magic s.buf) ≠ .accept := fun e => hf ((judge_accept_iff _ _).1 e)
    have hdis := judge_scan s.build.magic s.buf
    rw [State.settle_wait hf]
    change judge s.build.magic (scan s.build.magic s.buf) = .wait
    cases hj : judge s.build.magic (scan s.build.magic s.buf) with
    | discard => exact absurd hj hdis
    | wait => rfl
    | accept => exact absurd hj hacc

/-- The first bytes of a magic are too few to hold the whole magic that the other two residues begin with. -/
theorem residueMagic_excludes {magic : Word} {buf : List Byte} (hm : ResidueMagic magic buf) :
    ¬ ResidueHeader magic buf ∧ ¬ ResidueFrame magic buf := by
  have hno : ¬ buf.take 4 = le32 magic := fun e => absurd (take_four_length e) (Nat.not_le.2 hm.1)
  exact ⟨fun hh => hno hh.1, fun hf => hno hf.1⟩

/-- A header that is not complete is not the front of an incomplete frame. -/
theorem residueHeader_excludes {magic : Word} {buf : List Byte} (hh : ResidueHeader magic buf) :
    ¬ ResidueFrame magic buf :=
  fun hf => absurd hf.2.1 (Nat.not_le.2 hh.2)

end Sys2Proof.Machine

namespace Sys2Proof

open Sys2Proof.Machine

/-- Settles O3: `fetch` is the decoder on the issued bytes. -/
theorem stepRunsTheDecodedOperation : Obligations.StepRunsTheDecodedOperation :=
  fun _ _ _ h => step_of_fetch h

/-- Settles O21: CRC.INIT, then the run of CRC.UPDATEs from its state. -/
theorem runningRemainderIsTheCrcSoFar : Obligations.RunningRemainderIsTheCrcSoFar := by
  intro s m
  have hinit : execAll (.crcInit :: m.map .crcUpdate) s =
      execAll (m.map .crcUpdate) ((s.writeCrc crcInitValue).respond .completed) := rfl
  have hcrc : crc32 m ^^^ 0xFFFFFFFF = crcFold crcInitValue m := crc32_xorOut m
  rw [hinit, execAll_crcUpdates, hcrc]
  simp [State.respond, State.writeCrc, List.replicate_succ]

/-- Settles O52: every other completed instruction leaves `crc_state`. -/
theorem onlyCrcInitAndUpdateWriteCrcState : Obligations.OnlyCrcInitAndUpdateWriteCrcState := by
  intro i s t h hne
  obtain ⟨hi, -⟩ | ⟨d, -, rfl⟩ | ⟨-, left, r, -, rfl⟩ | ⟨r, rfl⟩ | rfl := exec_next_cases h
  · exact hi
  all_goals exact absurd rfl hne

/-- Settles O53, by what each completed instruction writes to `buf`. -/
theorem bufferGrowsAtTheBackAndShrinksAtTheFront : Obligations.BufferGrowsAtTheBackAndShrinksAtTheFront := by
  intro i s t h
  obtain ⟨-, v, rfl⟩ | ⟨d, hi, rfl⟩ | ⟨hi, left, r, hl, rfl⟩ | ⟨r, rfl⟩ | rfl := exec_next_cases h
  · exact .inr (.inr rfl)
  · exact .inl ⟨d, hi, .inl rfl⟩
  · exact .inr (.inl ⟨hi, hl⟩)
  · exact .inr (.inr rfl)
  · exact .inr (.inr rfl)

/-- Settles O39: the loop stopped to wait, which is one of the three residues; their lengths keep them apart. -/
theorem needMoreDataLeavesAResidue : Obligations.NeedMoreDataLeavesAResidue := by
  intro s t h hr
  obtain hm | hh | hf := (judge_wait_iff _ _).1 (decStep_needMoreData_judge h hr)
  · exact .inl ⟨hm, residueMagic_excludes hm⟩
  · exact .inr (.inl ⟨fun hm => (residueMagic_excludes hm).1 hh, hh, residueHeader_excludes hh⟩)
  · exact .inr (.inr ⟨fun hm => (residueMagic_excludes hm).2 hf, fun hh => residueHeader_excludes hh hf, hf⟩)

end Sys2Proof

/-! `buf` stays within its capacity, and what one operation can see of another's unit (20_memory.md R53, R58). -/

namespace Sys2Proof.Machine

theorem State.withinCap_resetOf (b : Build) : (State.resetOf b).withinCap = true :=
  (State.withinCap_iff _).2 fun _ _ => Nat.zero_le _

/-- The capacity bound passes to a state of the same build whose `buf` is no longer. -/
theorem State.withinCap_of_length_le {s t : State} (hs : s.withinCap = true) (hb : t.build = s.build)
    (hl : t.buf.length ≤ s.buf.length) : t.withinCap = true := by
  rw [State.withinCap_iff] at hs ⊢
  intro cap hcap
  exact hl.trans (hs cap (hb ▸ hcap))

/-- A push that is accepted has room; a push that is held changes no byte (R151). -/
theorem execDecPush_withinCap {d : List Byte} {s t : State} (hs : s.withinCap = true)
    (h : execDecPush d s = .next t) : t.withinCap = true := by
  cases h
  split
  case isTrue hroom =>
    have hfits : s.Fits d.length := (s.hasRoom_iff _).1 hroom
    rw [State.withinCap_iff]
    intro cap hcap
    simpa using hfits cap hcap
  case isFalse => exact State.withinCap_of_length_le hs rfl le_rfl

/-- An instruction that completes keeps `buf` within its capacity: only DEC.PUSH makes it longer. -/
theorem exec_withinCap {i : Instr} {s t : State} (hs : s.withinCap = true) (h : exec i s = .next t) :
    t.withinCap = true := by
  obtain ⟨d, rfl, -⟩ | ⟨-, hsuffix⟩ | hsame := bufferGrowsAtTheBackAndShrinksAtTheFront i s t h
  · exact execDecPush_withinCap hs h
  · exact State.withinCap_of_length_le hs (exec_build h) hsuffix.length_le
  · exact State.withinCap_of_length_le hs (exec_build h) (by rw [hsame])

/-- Where two operations complete one after the other, each completes. -/
theorem execAll_pair_next {i j : Instr} {s t : State} (h : execAll [i, j] s = .next t) :
    ∃ m, exec i s = .next m ∧ exec j m = .next t := by
  cases hi : exec i s with
  | next m =>
    refine ⟨m, rfl, ?_⟩
    cases hj : exec j m with
    | next t' => simpa [execAll, hi, hj] using h
    | fault _ | refused _ => simp [execAll, hi, hj] at h
  | fault _ | refused _ => simp [execAll, hi] at h

/-- `buf` after DEC.STEP: what the scan leaves, less the frame returned (R153, R161, R162). -/
def stepLeaves (magic : Word) (buf : List Byte) : List Byte :=
  if FrameAtFront magic (scan magic buf) then
    (scan magic buf).drop (16 + (rdLe32 (scan magic buf) 8).toNat)
  else scan magic buf

/-- What DEC.STEP returns: the frame where the scan ends, or NEED_MORE_DATA (R153). -/
def stepReturns (magic : Word) (buf : List Byte) : Result :=
  if FrameAtFront magic (scan magic buf) then .frame (frameOf (scan magic buf)) else .needMoreData

/-- DEC.STEP is a function of `MAGIC` and `buf` (R165). -/
theorem execDecStep_eq (s : State) : execDecStep s =
    .next ({ s with buf := stepLeaves s.build.magic s.buf }.respond (stepReturns s.build.magic s.buf)) := by
  unfold execDecStep stepLeaves stepReturns
  by_cases hf : FrameAtFront s.build.magic (scan s.build.magic s.buf)
  · rw [State.settle_accept (s := s.afterDiscards) hf, if_pos hf, if_pos hf]
    rfl
  · rw [State.settle_wait (s := s.afterDiscards) hf, if_neg hf, if_neg hf]
    rfl

/-- A buffer of `n` bytes is within `BUF_CAP` (R58). -/
def capAdmits (b : Build) (n : Nat) : Bool := b.bufCap.all fun cap => decide (n ≤ cap)

theorem State.hasRoom_eq_capAdmits (s : State) (n : Nat) : s.hasRoom n = capAdmits s.build (s.buf.length + n) := by
  unfold State.hasRoom capAdmits
  cases s.build.bufCap <;> rfl

/-- What a completed operation does, by its unit: the types of the functions say which part of the state the unit reads
and which it writes. -/
inductive Effect where
  /-- CRCU reads and writes `crc_state`. -/
  | crcu (update : Word → Word) (answer : Word → Result)
  /-- ENC reads `MAGIC` and writes nothing. -/
  | enc (answer : Word → Result)
  /-- DEC reads the build and `buf`, and writes `buf`. -/
  | dec (update : Build → List Byte → List Byte) (answer : Build → List Byte → Result)

namespace Effect

/-- The unit whose effect it is. -/
def unit : Effect → BlockUnit
  | .crcu _ _ => .crcu
  | .enc _ => .enc
  | .dec _ _ => .dec

/-- What the operation returns in the state `s`. -/
def result (s : State) : Effect → Result
  | .crcu _ answer => answer s.crcState
  | .enc answer => answer s.build.magic
  | .dec _ answer => answer s.build s.buf

/-- The state with what the operation writes to its unit. -/
def write (s : State) : Effect → State
  | .crcu update _ => s.writeCrc (update s.crcState)
  | .enc _ => s
  | .dec update _ => { s with buf := update s.build s.buf }

/-- The state the operation leaves. -/
def run (e : Effect) (s : State) : State := (e.write s).respond (e.result s)

theorem run_results (e : Effect) (s : State) : (e.run s).results = s.results ++ [e.result s] := by
  cases e <;> rfl

/-- R53: effects of different units neither see nor overwrite each other. -/
theorem run_comm {e f : Effect} (h : e.unit ≠ f.unit) (s : State) :
    f.result (e.run s) = f.result s ∧ e.result (f.run s) = e.result s ∧
      (e.run (f.run s)).crcState = (f.run (e.run s)).crcState ∧ (e.run (f.run s)).buf = (f.run (e.run s)).buf := by
  cases e with
  | crcu _ _ =>
    cases f with
    | crcu _ _ => exact absurd rfl h
    | enc _ | dec _ _ => exact ⟨rfl, rfl, rfl, rfl⟩
  | enc _ =>
    cases f with
    | enc _ => exact absurd rfl h
    | crcu _ _ | dec _ _ => exact ⟨rfl, rfl, rfl, rfl⟩
  | dec _ _ =>
    cases f with
    | dec _ _ => exact absurd rfl h
    | crcu _ _ | enc _ => exact ⟨rfl, rfl, rfl, rfl⟩

end Effect

/-- DEC.PUSH as an effect of DEC: it appends where there is room, and is held where there is none (R150, R151). -/
def Effect.push (d : List Byte) : Effect :=
  .dec (fun b buf => if capAdmits b (buf.length + d.length) then buf ++ d else buf)
    (fun b buf => if capAdmits b (buf.length + d.length) then .completed else .held .bufFull)

theorem execDecPush_eq_run (d : List Byte) (s : State) : execDecPush d s = .next ((Effect.push d).run s) := by
  simp only [execDecPush, State.hasRoom_eq_capAdmits, Effect.push, Effect.run, Effect.write, Effect.result]
  split <;> rfl

/-- An operation that completes in some state has an effect of its own unit, and completes with it in every state:
whether ENC.FRAME is refused depends on its payload alone (R132). -/
theorem exec_eq_run_of_next {i : Instr} {s t : State} (hi : isOperation i = true) (h : exec i s = .next t) :
    ∃ e : Effect, e.unit = unitOf i ∧ ∀ s, exec i s = .next (e.run s) := by
  cases i with
  | crcInit => exact ⟨.crcu (fun _ => crcInitValue) (fun _ => .completed), rfl, fun _ => rfl⟩
  | crcUpdate b => exact ⟨.crcu (crcUpdate · b) (fun _ => .completed), rfl, fun _ => rfl⟩
  | crcFinal => exact ⟨.crcu id (fun c => .crc (c ^^^ crcXorOut)), rfl, fun _ => rfl⟩
  | crcBlock d => exact ⟨.crcu id (fun _ => .crc (crc32 d)), rfl, fun _ => rfl⟩
  | encFrame cmd id payload =>
    refine ⟨.enc (fun magic => .bytes (encodeFrame magic cmd id payload)), rfl, fun s' => ?_⟩
    have hfit : payload.length < 2 ^ 32 := by
      by_contra hlong
      simp only [exec, execEncFrame, if_neg hlong] at h
      cases h
    exact if_pos hfit
  | decPush d => exact ⟨.push d, rfl, execDecPush_eq_run d⟩
  | decStep => exact ⟨.dec (fun b => stepLeaves b.magic) (fun b => stepReturns b.magic), rfl, execDecStep_eq⟩
  | decReset =>
    exact ⟨.dec (fun _ buf => buf.drop buf.length) (fun _ _ => .completed), rfl, fun _ => rfl⟩
  | frameStartUpgrade | frameTransferChunk | frameEndUpgrade | frameAck | frameNack | frameUnknown _ => cases hi

end Sys2Proof.Machine

namespace Sys2Proof

open Sys2Proof.Machine

/-- Settles O54: a completed step runs one instruction, which keeps the bound, or waits and keeps everything. -/
theorem stepKeepsBufferWithinCapacity : Obligations.StepKeepsBufferWithinCapacity := by
  intro s t hs h
  obtain ⟨i, rest, -, hi⟩ | ⟨-, rfl⟩ := step_next_cases h
  · have htaken : (s.takeIssued rest).withinCap = true := State.withinCap_of_length_le hs rfl le_rfl
    exact exec_withinCap htaken hi
  · exact hs

/-- Settles O55: an empty `buf` is within every capacity. -/
theorem resetBufferIsWithinCapacity : Obligations.ResetBufferIsWithinCapacity :=
  ⟨State.withinCap_resetOf Config.build, State.withinCap_resetOf⟩

/-- Settles O58: each operation has an effect of its own unit, and effects of different units commute. -/
theorem operationsOnDifferentUnitsCommute : Obligations.OperationsOnDifferentUnitsCommute := by
  intro i j s t hi hj hne h
  obtain ⟨m, him, hjt⟩ := execAll_pair_next h
  obtain ⟨e, heu, he⟩ := exec_eq_run_of_next hi him
  obtain ⟨f, hfu, hf⟩ := exec_eq_run_of_next hj hjt
  obtain rfl : e.run s = m := by simpa [he] using him
  obtain rfl : f.run (e.run s) = t := by simpa [hf] using hjt
  obtain ⟨hfr, her, hcrc, hbuf⟩ := Effect.run_comm (heu ▸ hfu ▸ hne : e.unit ≠ f.unit) s
  refine ⟨e.run (f.run s), e.result s, f.result s, ?_, ?_, ?_, hcrc, hbuf⟩
  · simp only [execAll, hf, he]
  · simp [Effect.run_results, hfr]
  · simp [Effect.run_results, her]

end Sys2Proof

/-! The op words of R84, and what the decoder reads from an op word: its operation, or that R77 refuses it
(30_encoding.md R74 to R78). -/

namespace Sys2Proof

open Sys2Proof.Machine

@[simp] theorem opField_opWord (op a b c : Byte) : opField (opWord op a b c) = op := (opWord_fields op a b c).1
@[simp] theorem aField_opWord (op a b c : Byte) : aField (opWord op a b c) = a := (opWord_fields op a b c).2.1
@[simp] theorem bField_opWord (op a b c : Byte) : bField (opWord op a b c) = b := (opWord_fields op a b c).2.2.1
@[simp] theorem cField_opWord (op a b c : Byte) : cField (opWord op a b c) = c := (opWord_fields op a b c).2.2.2

@[simp] theorem noFields_opWord (op : Byte) : noFields (opWord op 0#8 0#8 0#8) = true := by simp [noFields]

/-- The fields `A`, `B` and `C` make up the bits `w[23:0]` (R75). -/
theorem noFields_iff (w : Word) : noFields w = true ↔ w.extractLsb' 0 24 = 0 := by
  simp only [noFields, aField, bField, cField, Bool.and_eq_true, beq_iff_eq, ← BitVec.toNat_inj,
    BitVec.extractLsb'_toNat, Nat.shiftRight_eq_div_pow, BitVec.ofNat_eq_ofNat, BitVec.toNat_ofNat]
  omega

/-- The fields `A` and `B` make up the bits `w[23:8]` (R75). -/
theorem fieldsAB_iff (w : Word) : (aField w == 0 && bField w == 0) = true ↔ w.extractLsb' 8 16 = 0 := by
  simp only [aField, bField, Bool.and_eq_true, beq_iff_eq, ← BitVec.toNat_inj,
    BitVec.extractLsb'_toNat, Nat.shiftRight_eq_div_pow, BitVec.ofNat_eq_ofNat, BitVec.toNat_ofNat]
  omega

/-- An op word without operands is its `OP` and zeros. -/
theorem opWord_of_noFields {w : Word} {op : Byte} (hop : opField w = op) (h : noFields w = true) :
    opWord op 0 0 0 = w := by
  obtain ⟨⟨ha, hb⟩, hc⟩ : (aField w = 0 ∧ bField w = 0) ∧ cField w = 0 := by simpa [noFields] using h
  rw [← hop, ← ha]
  simpa [ha, hb, hc] using opWord_of_fields w

/-- The op word of CRC.UPDATE is its `OP`, zeros and the byte. -/
theorem opWord_of_fieldsAB {w : Word} {op : Byte} (hop : opField w = op)
    (h : (aField w == 0 && bField w == 0) = true) : opWord op 0 0 (cField w) = w := by
  obtain ⟨ha, hb⟩ : aField w = 0 ∧ bField w = 0 := by simpa using h
  simpa [hop, ha, hb] using opWord_of_fields w

/-- The op word of ENC.FRAME is its `OP`, the command and the two bytes of the id. -/
theorem opWord_of_idField {w : Word} {op : Byte} (hop : opField w = op) :
    opWord op (aField w) ((idField w).extractLsb' 8 8) ((idField w).extractLsb' 0 8) = w := by
  rw [(idField_bytes w).1, (idField_bytes w).2, ← hop, opWord_of_fields]

/-- The op word is its four bytes in place (R75). -/
theorem opWord_eq_or (op a b c : Byte) : opWord op a b c =
    op.setWidth 32 <<< 24 ||| a.setWidth 32 <<< 16 ||| b.setWidth 32 <<< 8 ||| c.setWidth 32 := by
  have h := BitVec.setWidth_append_append_append_eq_shiftLeft_setWidth_or (w'''' := 32) (b := op) (b' := a) (b'' := b)
    (b''' := c)
  simpa [opWord] using h

/-- An id is its two bytes in place (R75). -/
theorem setWidth_id_eq_or (id : Half) : id.setWidth 32 =
    (id.extractLsb' 8 8).setWidth 32 <<< 8 ||| (id.extractLsb' 0 8).setWidth 32 := by
  have hid : id.extractLsb' 8 8 ++ id.extractLsb' 0 8 = id := by
    rw [BitVec.extractLsb'_append_extractLsb'_eq_extractLsb' (start₁ := 0) (len₁ := 8) rfl]
    simp
  conv_lhs => rw [← hid]
  exact BitVec.setWidth_append_eq_shiftLeft_setWidth_or

/-- The op word comes first: bytes that decode begin with one. -/
theorem decode_ok_splits {bs rest : List Byte} {i : Instr} (h : decode bs = .ok i rest) :
    ∃ w tl, bs = le32 w ++ tl ∧ decodeOp w tl = .ok i rest := by
  unfold decode at h
  split at h
  case h_1 w0 w1 w2 w3 tl =>
    refine ⟨_, tl, ?_, h⟩
    rw [le32_rdLe32 (by simp)]
    rfl
  case h_2 => cases h

/-- A data operand that fits its length field is read back whole (R74, R78). -/
theorem withData_encodeData (k : List Byte → Instr) {d : List Byte} (h : dataFits d = true) (rest : List Byte) :
    withData k (encodeData d ++ rest) = .ok (k d) rest := by
  rw [withData, takeData_encodeData h]

/-- What the decoder may read from the op word `w` and the bytes `bs` after it: an operation whose encoding stands
there, that `w` is illegal, or that the operand of a legal op word is not all there. -/
def Decoded.Reads (w : Word) (bs : List Byte) : Decoded → Prop
  | .ok i rest => ¬ IllegalOpWord w ∧ isOperation i = true ∧ wellFormed i = true ∧ encode i ++ rest = le32 w ++ bs
  | .illegalOp v => IllegalOpWord w ∧ v = w
  | .incomplete => ¬ IllegalOpWord w

/-- R77 for an operation without operands in its op word. -/
theorem illegalOpWord_iff_noFields {w : Word} {op : Byte} (hop : opField w = op)
    (hmem : op ∈ ([0x01, 0x03, 0x04, 0x20, 0x21, 0x22] : List Byte)) : IllegalOpWord w ↔ ¬ noFields w = true := by
  have hknown : ∀ op ∈ ([0x01, 0x03, 0x04, 0x20, 0x21, 0x22] : List Byte),
      op ∈ ([0x01, 0x02, 0x03, 0x04, 0x10, 0x20, 0x21, 0x22] : List Byte) ∧ op ≠ 0x02 := by decide
  obtain ⟨hmem8, hne⟩ := hknown op hmem
  subst hop
  rw [noFields_iff]
  constructor
  · rintro (hno | ⟨-, h⟩ | ⟨h2, -⟩)
    · exact absurd hmem8 hno
    · exact h
    · exact absurd h2 hne
  · exact fun h => .inr (.inl ⟨hmem, h⟩)

/-- R77 for CRC.UPDATE. -/
theorem illegalOpWord_iff_fieldsAB {w : Word} (hop : opField w = 0x02) :
    IllegalOpWord w ↔ ¬ (aField w == 0 && bField w == 0) = true := by
  have hop' : w.extractLsb' 24 8 = 0x02 := hop
  rw [fieldsAB_iff]
  simp [IllegalOpWord, hop']

/-- R77 for ENC.FRAME, whose op word has no must-be-zero field. -/
theorem not_illegalOpWord_encFrame {w : Word} (hop : opField w = 0x10) : ¬ IllegalOpWord w := by
  have hop' : w.extractLsb' 24 8 = 0x10 := hop
  simp [IllegalOpWord, hop']

/-- Where a check of the must-be-zero fields is R77's, what it lets pass is an operation. -/
theorem Decoded.reads_checked {w : Word} {bs : List Byte} {p : Bool} {d : Decoded}
    (hp : IllegalOpWord w ↔ ¬ p = true) (hd : ¬ IllegalOpWord w → p = true → d.Reads w bs) :
    (if p then d else .illegalOp w).Reads w bs := by
  split
  case isTrue h => exact hd (fun hw => hp.1 hw h) h
  case isFalse h => exact ⟨hp.2 h, rfl⟩

/-- An operation with a data operand is read where the operand is all there (R78). -/
theorem withData_reads {w : Word} {k : List Byte → Instr} (hw : ¬ IllegalOpWord w)
    (hi : ∀ d, isOperation (k d) = true) (hwf : ∀ d, wellFormed (k d) = dataFits d)
    (henc : ∀ d, encode (k d) = le32 w ++ encodeData d) (bs : List Byte) : (withData k bs).Reads w bs := by
  unfold withData
  split
  case h_1 d rest h =>
    obtain ⟨hfits, hbs⟩ := takeData_some h
    refine ⟨hw, hi d, (hwf d).trans hfits, ?_⟩
    rw [henc, List.append_assoc, hbs]
  case h_2 => exact hw

section NoFields

variable {w : Word} {op : Byte} (hop : opField w = op)
  (hmem : op ∈ ([0x01, 0x03, 0x04, 0x20, 0x21, 0x22] : List Byte))

include hop hmem

/-- An operation that is its op word and nothing else. -/
theorem noFields_reads {i : Instr} (hi : isOperation i = true) (hwf : wellFormed i = true)
    (henc : encode i = le32 (opWord op 0 0 0)) (bs : List Byte) :
    (if noFields w then Decoded.ok i bs else .illegalOp w).Reads w bs :=
  Decoded.reads_checked (illegalOpWord_iff_noFields hop hmem) fun hw hz =>
    ⟨hw, hi, hwf, by rw [henc, opWord_of_noFields hop hz]⟩

/-- An operation that is its op word and a data operand. -/
theorem noFields_withData_reads {k : List Byte → Instr} (hi : ∀ d, isOperation (k d) = true)
    (hwf : ∀ d, wellFormed (k d) = dataFits d) (henc : ∀ d, encode (k d) = le32 (opWord op 0 0 0) ++ encodeData d)
    (bs : List Byte) : (if noFields w then withData k bs else .illegalOp w).Reads w bs :=
  Decoded.reads_checked (illegalOpWord_iff_noFields hop hmem) fun hw hz =>
    withData_reads hw hi hwf (fun d => by rw [henc, opWord_of_noFields hop hz]) bs

end NoFields

/-- Everything the decoder can read from an op word, branch by branch of the table of R76. -/
theorem decodeOp_reads (w : Word) (bs : List Byte) : (decodeOp w bs).Reads w bs := by
  unfold decodeOp
  split
  case isTrue h => exact noFields_reads h (by decide) rfl rfl rfl bs
  split
  case isTrue h =>
    refine Decoded.reads_checked (illegalOpWord_iff_fieldsAB h) fun hw hz => ⟨hw, rfl, rfl, ?_⟩
    rw [encode, opWord_of_fieldsAB h hz]
  split
  case isTrue h => exact noFields_reads h (by decide) rfl rfl rfl bs
  split
  case isTrue h => exact noFields_withData_reads h (by decide) (fun _ => rfl) (fun _ => rfl) (fun _ => rfl) bs
  split
  case isTrue h =>
    refine withData_reads (not_illegalOpWord_encFrame h) (fun _ => rfl) (fun _ => rfl) (fun d => ?_) bs
    rw [encode, opWord_of_idField h]
  split
  case isTrue h => exact noFields_withData_reads h (by decide) (fun _ => rfl) (fun _ => rfl) (fun _ => rfl) bs
  split
  case isTrue h => exact noFields_reads h (by decide) rfl rfl rfl bs
  split
  case isTrue h => exact noFields_reads h (by decide) rfl rfl rfl bs
  case isFalse h01 h02 h03 h04 h10 h20 h21 h22 =>
    have hno : opField w ∉ ([0x01, 0x02, 0x03, 0x04, 0x10, 0x20, 0x21, 0x22] : List Byte) := by
      simp only [List.mem_cons, List.not_mem_nil, not_or]
      exact ⟨h01, h02, h03, h04, h10, h20, h21, h22, not_false⟩
    exact ⟨.inl hno, rfl⟩

/-- R77: the op words the decoder refuses are the illegal ones, whatever follows them. -/
theorem decodeOp_illegalOp_iff {w v : Word} {bs : List Byte} :
    decodeOp w bs = .illegalOp v ↔ IllegalOpWord w ∧ v = w := by
  have hreads := decodeOp_reads w bs
  generalize decodeOp w bs = d at hreads ⊢
  cases d with
  | ok i rest => simp [hreads.1]
  | illegalOp u =>
    obtain ⟨hw, rfl⟩ := hreads
    simp [hw, eq_comm]
  | incomplete =>
    have hw : ¬ IllegalOpWord w := hreads
    simp [hw]

end Sys2Proof

namespace Sys2Proof.Machine

/-- An instruction is refused only as an ENC.FRAME whose payload does not fit (R132). -/
theorem exec_refused {i : Instr} {s : State} {r : Refusal} (h : exec i s = .refused r) :
    ∃ cmd id payload, i = .encFrame cmd id payload ∧ 2 ^ 32 ≤ payload.length ∧
      r = .payloadTooLong payload.length := by
  cases i with
  | encFrame cmd id payload =>
    simp only [exec, execEncFrame] at h
    split at h
    case isTrue => cases h
    case isFalse hlong =>
      cases h
      exact ⟨cmd, id, payload, rfl, Nat.not_lt.1 hlong, rfl⟩
  | crcInit | crcUpdate _ | crcFinal | crcBlock _ | decPush _ | decStep | decReset | frameStartUpgrade
  | frameTransferChunk | frameEndUpgrade | frameAck | frameNack | frameUnknown _ => cases h

/-- ILLEGAL_OP is the decoder's refusal and no instruction's (R77, R202). -/
theorem step_illegalOp_iff {s : State} {v : Word} : step s = .refused (.illegalOp v) ↔ fetch s = .illegalOp v := by
  unfold step
  cases fetch s with
  | ok i rest =>
    refine ⟨fun h => ?_, fun h => by cases h⟩
    obtain ⟨_, _, _, _, _, hr⟩ := exec_refused h
    cases hr
  | illegalOp w => simp
  | incomplete => simp

end Sys2Proof.Machine

namespace Sys2Proof

open Sys2Proof.Machine

/-- Settles O7, operation by operation: the op word's fields select it, and its data operand is taken back whole. -/
theorem decodeOfEncodedOperation : Obligations.DecodeOfEncodedOperation := by
  intro i rest hi hwf
  cases i with
  | crcInit | crcUpdate _ | crcFinal | decStep | decReset => simp [encode, decode_le32, decodeOp]
  | crcBlock d | encFrame _ _ d | decPush d =>
    have hfits : dataFits d = true := hwf
    simp [encode, decode_le32, decodeOp, idField_opWord, withData_encodeData, hfits]
  | frameStartUpgrade | frameTransferChunk | frameEndUpgrade | frameAck | frameNack | frameUnknown _ => cases hi

/-- Settles O8: the bytes begin with an op word, from which the decoder reads only an operation that encodes to them. -/
theorem decodedOperationReencodes : Obligations.DecodedOperationReencodes := by
  intro bs i rest h
  obtain ⟨w, tl, rfl, hd⟩ := decode_ok_splits h
  have hreads := decodeOp_reads w tl
  rw [hd] at hreads
  exact hreads.2

/-- Settles O4: a step refuses the op word that the decoder refuses, and the decoder refuses those of R77. -/
theorem stepRefusesExactlyIllegalOpWords : Obligations.StepRefusesExactlyIllegalOpWords := by
  intro s w rest hs
  have hrefused (v : Word) : step s = .refused (.illegalOp v) ↔ IllegalOpWord w ∧ v = w := by
    rw [step_illegalOp_iff, fetch, hs, decode_le32, decodeOp_illegalOp_iff]
  exact ⟨fun hw => (hrefused w).2 ⟨hw, rfl⟩, fun hw v h => hw ((hrefused v).1 h).1⟩

/-- Settles O9: the op words by their fields in place, the rest by definition. -/
theorem opWordsAreTheStatedValues : Obligations.OpWordsAreTheStatedValues := by
  refine ⟨rfl, rfl, fun d => ?_, fun d => ?_, rfl, rfl, fun b => ?_, fun cmd id d => ?_, rfl, rfl⟩
  · rw [List.append_assoc]
    rfl
  · rw [List.append_assoc]
    rfl
  · rw [encode, opWord_eq_or]
    rfl
  · rw [encode, opWord_eq_or, setWidth_id_eq_or, ← BitVec.or_assoc, List.append_assoc]
    rfl

/-- Settles O10: the bytes are decoded. -/
theorem sampleOpWordsDecode : Obligations.SampleOpWordsDecode := by
  unfold Obligations.SampleOpWordsDecode
  decide

end Sys2Proof

/-! The six frame command-byte rows: their bytes, and what each does with the frame at the front of `buf`
(30_encoding.md R64, R65, 42_decoder.md R161, R162; log entry 8). -/

namespace Sys2Proof

open Sys2Proof.Machine

theorem isUnknownCommand_iff (c : Byte) :
    isUnknownCommand c = true ↔ c ≠ 0x01 ∧ c ≠ 0x02 ∧ c ≠ 0x03 ∧ c ≠ 0x04 ∧ c ≠ 0x05 := by
  simp only [isUnknownCommand, decide_eq_true_eq]
  bv_omega

theorem isUnknownCommand_of_not_mem {c : Byte} (h : c ∉ ([0x01, 0x02, 0x03, 0x04, 0x05] : List Byte)) :
    isUnknownCommand c = true := by
  simpa [isUnknownCommand_iff] using h

/-- Every byte is one of the five R64 names, or unknown. -/
theorem commandByte_cases (c : Byte) :
    c = 0x01 ∨ c = 0x02 ∨ c = 0x03 ∨ c = 0x04 ∨ c = 0x05 ∨ isUnknownCommand c = true := by
  rw [isUnknownCommand_iff]
  tauto

theorem decodeCommandByte_of_unknown {c : Byte} (h : isUnknownCommand c = true) :
    decodeCommandByte c = .frameUnknown c := by
  simp only [decodeCommandByte, (isUnknownCommand_iff c).1 h, if_false]

theorem decodeCmd_of_unknown {c : Byte} (h : isUnknownCommand c = true) : decodeCmd c = .unknown c := by
  simp only [decodeCmd, (isUnknownCommand_iff c).1 h, if_false]

end Sys2Proof

namespace Sys2Proof.Machine

/-- A command row surfaces the verified frame that carries its byte (R161, R162). -/
theorem State.commandRow_of_frame {s : State} {code : Byte} (hf : FrameAtFront s.build.magic s.buf)
    (hc : byteAt s.buf 5 = code) (cmd : Command) : s.commandRow code cmd = { s with
      buf := s.buf.drop (16 + (rdLe32 s.buf 8).toNat)
      results := s.results ++ [.frame { frameOf s.buf with command := cmd }] } := by
  obtain ⟨-, -, hs⟩ | ⟨hno, -⟩ := s.commandRow_cases code cmd
  · simp [hs, State.surface_eq, frameRecord, frameOf, frameTotal_eq]
  · exact absurd ⟨hf, hc⟩ hno

/-- Elsewhere a command row does nothing (log entry 8). -/
theorem State.commandRow_of_no_frame {s : State} {code : Byte}
    (h : ¬ (FrameAtFront s.build.magic s.buf ∧ byteAt s.buf 5 = code)) (cmd : Command) :
    s.commandRow code cmd = s := by
  obtain ⟨hf, hc, -⟩ | ⟨-, hs⟩ := s.commandRow_cases code cmd
  · exact absurd ⟨hf, hc⟩ h
  · exact hs

theorem rowUnknown_of_unknown {c : Byte} (h : isUnknownCommand c = true) (s : State) :
    rowUnknown c s = s.commandRow c (.unknown c) :=
  if_pos (decodeCmd_of_unknown h)

/-- The row of a byte is the command row with the command R65 gives the byte. -/
theorem rowOf_eq_commandRow (c : Byte) (s : State) : rowOf c s = s.commandRow c (decodeCmd c) := by
  obtain rfl | rfl | rfl | rfl | rfl | hc := commandByte_cases c
  iterate 5 rfl
  rw [decodeCmd_of_unknown hc, ← rowUnknown_of_unknown hc]
  simp only [rowOf, (isUnknownCommand_iff c).1 hc, if_false]

end Sys2Proof.Machine

namespace Sys2Proof

open Sys2Proof.Machine

/-- Settles O12: each of the five named bytes has its row, and the other bytes share the row that carries the byte. -/
theorem commandByteRowsRoundTrip : Obligations.CommandByteRowsRoundTrip := by
  constructor
  · intro c
    obtain rfl | rfl | rfl | rfl | rfl | hc := commandByte_cases c
    iterate 5 exact ⟨rfl, rfl, rfl⟩
    rw [decodeCommandByte_of_unknown hc]
    exact ⟨rfl, hc, rfl⟩
  · intro i hi hwf
    cases i with
    | crcInit | crcUpdate _ | crcFinal | crcBlock _ | encFrame _ _ _ | decPush _ | decStep | decReset => cases hi
    | frameStartUpgrade | frameTransferChunk | frameEndUpgrade | frameAck | frameNack => exact ⟨_, rfl, rfl⟩
    | frameUnknown c => exact ⟨c, rfl, decodeCommandByte_of_unknown hwf⟩

/-- Settles O49: each row is the command row of its byte and command. -/
theorem commandRowsSurfaceTheirFrame : Obligations.CommandRowsSurfaceTheirFrame := by
  intro s hf surfaced
  have row {code : Byte} (cmd : Command) (hc : byteAt s.buf 5 = code) :
      Host.Outcome.next (s.commandRow code cmd) = surfaced cmd :=
    congrArg _ (State.commandRow_of_frame hf hc cmd)
  refine ⟨row _, row _, row _, row _, row _, fun c hno hc => ?_⟩
  rw [← row _ hc, ← rowUnknown_of_unknown (isUnknownCommand_of_not_mem hno)]
  rfl

/-- Settles O50: whichever row the byte has, it is a command row of that byte. -/
theorem commandRowsElsewhereDoNothing : Obligations.CommandRowsElsewhereDoNothing := by
  intro s c h
  rw [exec_decodeCommandByte, rowOf_eq_commandRow, State.commandRow_of_no_frame h]

/-- Settles O11, on each named byte and on the others. -/
theorem commandByteMapIsTotal : Obligations.CommandByteMapIsTotal := by
  refine ⟨rfl, rfl, rfl, rfl, rfl, fun c hc => decodeCmd_of_unknown (isUnknownCommand_of_not_mem hc),
    rfl, rfl, rfl, rfl, rfl, fun _ => rfl, fun c => ?_⟩
  obtain rfl | rfl | rfl | rfl | rfl | hc := commandByte_cases c
  iterate 5 rfl
  rw [decodeCmd_of_unknown hc]
  rfl

end Sys2Proof

/-! The one result of each operation, and the draining loop (30_encoding.md R79, R83). -/

namespace Sys2Proof.Machine

/-- A frame ENC makes has 16 bytes more than its payload (R60). -/
theorem encodeFrame_length (magic : Word) (cmd : Byte) (id : Half) (payload : List Byte) :
    (encodeFrame magic cmd id payload).length = 16 + payload.length :=
  Message.wire_length magic ⟨cmd, id, payload⟩

/-- DEC.STEP returns a frame or NEED_MORE_DATA (R79). -/
theorem stepReturns_cases (magic : Word) (buf : List Byte) :
    stepReturns magic buf = .needMoreData ∨ ∃ f, stepReturns magic buf = .frame f := by
  unfold stepReturns
  split
  · exact .inr ⟨_, rfl⟩
  · exact .inl rfl

/-- The state DEC.STEP leaves (R153). -/
def State.stepped (s : State) : State :=
  { s with buf := stepLeaves s.build.magic s.buf }.respond (stepReturns s.build.magic s.buf)

theorem exec_decStep (s : State) : exec .decStep s = .next s.stepped := execDecStep_eq s

/-- A frame that DEC.STEP returns is taken from `buf`, which gets shorter (R162, R164). -/
theorem stepLeaves_length_lt {magic : Word} {buf : List Byte} {f : Frame} (h : stepReturns magic buf = .frame f) :
    (stepLeaves magic buf).length < buf.length := by
  unfold stepReturns at h
  split at h
  case isTrue hf =>
    have hscan := (scan_suffix magic buf).length_le
    have ⟨_, hwhole, _⟩ := hf
    rw [stepLeaves, if_pos hf, List.length_drop]
    omega
  case isFalse => cases h

/-- A pass of the loop that gets a frame keeps it and goes on. -/
theorem drainWithin_frame {s : State} {f : Frame} (h : stepReturns s.build.magic s.buf = .frame f) (fuel : Nat) :
    drainWithin (fuel + 1) s = (f :: (drainWithin fuel s.stepped).1, (drainWithin fuel s.stepped).2) := by
  simp [drainWithin, exec_decStep, State.stepped, h]

/-- A pass of the loop that gets NEED_MORE_DATA ends it. -/
theorem drainWithin_needMoreData {s : State} (h : stepReturns s.build.magic s.buf = .needMoreData) (fuel : Nat) :
    drainWithin (fuel + 1) s = ([], s.stepped) := by
  simp [drainWithin, exec_decStep, State.stepped, h]

/-- With more passes than bytes in `buf`, the loop ends at NEED_MORE_DATA: every frame takes at least a byte. -/
theorem drainWithin_spec {fuel : Nat} {s : State} (hfuel : s.buf.length < fuel) :
    execAll (List.replicate ((drainWithin fuel s).1.length + 1) .decStep) s = .next (drainWithin fuel s).2 ∧
      (drainWithin fuel s).2.results = s.results ++ (drainWithin fuel s).1.map .frame ++ [.needMoreData] := by
  induction fuel generalizing s with
  | zero => exact absurd hfuel (Nat.not_lt_zero _)
  | succ fuel ih =>
    have hstep (is : List Instr) : execAll (.decStep :: is) s = execAll is s.stepped := by
      rw [execAll, exec_decStep]
    obtain hr | ⟨f, hr⟩ := stepReturns_cases s.build.magic s.buf
    · rw [drainWithin_needMoreData hr]
      exact ⟨hstep [], by simp [State.stepped, hr]⟩
    · have hshorter : s.stepped.buf.length < fuel := by
        have := stepLeaves_length_lt hr
        simp only [State.stepped, State.respond_buf]
        omega
      obtain ⟨hrun, hres⟩ := ih hshorter
      rw [drainWithin_frame hr]
      refine ⟨(hstep _).trans hrun, hres.trans ?_⟩
      simp [State.stepped, hr]

end Sys2Proof.Machine

namespace Sys2Proof

open Sys2Proof.Machine

/-- Settles O43: the expansions by definition, and DEC.DRAIN since `|buf| + 1` passes are more than `buf` has bytes. -/
theorem pseudoOperationsExpandAsListed : Obligations.PseudoOperationsExpandAsListed :=
  ⟨fun _ _ => rfl, fun _ _ => rfl, fun _ => rfl, fun _ => rfl, fun _ => rfl, fun _ => rfl,
    fun s => drainWithin_spec (Nat.lt_succ_self s.buf.length)⟩

/-- Settles O57, operation by operation. -/
theorem everyOperationReturnsOneResult : Obligations.EveryOperationReturnsOneResult := by
  intro i s t hi h
  cases i with
  | crcInit | crcUpdate _ | crcFinal | crcBlock _ | decReset =>
    cases h
    exact ⟨rfl, _, rfl, by simp⟩
  | encFrame cmd id payload =>
    obtain rfl := execEncFrame_next h
    exact ⟨rfl, _, rfl, by simp [encodeFrame_length]⟩
  | decPush d =>
    obtain rfl | rfl := execDecPush_next_cases h
    · exact ⟨rfl, _, rfl, by simp⟩
    · exact ⟨rfl, _, rfl, by simp⟩
  | decStep =>
    obtain rfl : s.stepped = t := by simpa [exec_decStep] using h
    refine ⟨rfl, _, rfl, ?_⟩
    simpa using stepReturns_cases s.build.magic s.buf
  | frameStartUpgrade | frameTransferChunk | frameEndUpgrade | frameAck | frameNack | frameUnknown _ => cases hi

end Sys2Proof

/-! The remainder: its eight passes, the table, the residue, and that no byte can be changed unseen
(40_crc.md R101 to R104, R111, R112). -/

namespace Sys2Proof.Machine

theorem crcBits_eq_iterate (k : Nat) (c : Word) : crcBits k c = crcBit^[k] c := by
  induction k generalizing c with
  | zero => rfl
  | succ k ih => exact ih (crcBit c)

/-- Passes that only meet zero bits only shift: each one drops its zero bit and adds no polynomial. -/
theorem crcBits_eq_ushiftRight {k : Nat} {c : Word} (h : ∀ i, i < k → c.getLsbD i = false) :
    crcBits k c = c >>> k := by
  induction k generalizing c with
  | zero => simp [crcBits]
  | succ k ih =>
    have hbit : crcBit c = c >>> 1 := by rw [crcBit, h 0 (by omega), if_neg Bool.false_ne_true]
    have hrest : ∀ i, i < k → (c >>> 1).getLsbD i = false := fun i hi => by
      rw [BitVec.getLsbD_ushiftRight]
      exact h _ (by omega)
    rw [crcBits, hbit, ih hrest, ← BitVec.shiftRight_add, Nat.add_comm]

theorem setWidth_ushiftRight_eight (b : Byte) : b.setWidth 32 >>> 8 = 0#32 := by
  simp only [← BitVec.toNat_inj, BitVec.toNat_ushiftRight, BitVec.toNat_setWidth, Nat.shiftRight_eq_div_pow,
    BitVec.toNat_ofNat]
  omega

/-- One byte is folded at a time (R104): of a word at the input, the low byte enters the remainder and the rest waits,
shifted along. -/
theorem crcBits_eight_xor (c v : Word) :
    crcBits 8 (c ^^^ v) = crcUpdate c (v.extractLsb' 0 8) ^^^ (v >>> 8) := by
  have hlow : ∀ i, i < 8 → (v ^^^ (v.extractLsb' 0 8).setWidth 32).getLsbD i = false := fun i hi => by
    simp [hi, show i < 32 by omega]
  have hhigh : crcBits 8 (v ^^^ (v.extractLsb' 0 8).setWidth 32) = v >>> 8 := by
    rw [crcBits_eq_ushiftRight hlow, BitVec.ushiftRight_xor_distrib, setWidth_ushiftRight_eight, BitVec.xor_zero]
  have hsplit : c ^^^ v =
      (c ^^^ (v.extractLsb' 0 8).setWidth 32) ^^^ (v ^^^ (v.extractLsb' 0 8).setWidth 32) := by
    rw [BitVec.xor_comm v, ← BitVec.xor_assoc, BitVec.xor_assoc c, BitVec.xor_self, BitVec.xor_zero]
  rw [hsplit, crcBits_xor, hhigh, crcUpdate]

/-- The four bytes of a word, folded in one after another, act as the word itself. -/
theorem crcFold_le32 (c v : Word) : crcFold c (le32 v) = crcBits 32 (c ^^^ v) := by
  have hbyte (k : Nat) : (v >>> k).extractLsb' 0 8 = v.extractLsb' k 8 := by
    ext i hi
    simp
  rw [crcBits_add 24 8, crcBits_add 16 8, crcBits_add 8 8]
  rw [crcBits_eight_xor, crcBits_eight_xor, crcBits_eight_xor, crcBits_eight_xor]
  simp only [← BitVec.shiftRight_add, hbyte]
  rw [BitVec.ushiftRight_eq_zero (le_refl 32), BitVec.xor_zero]
  rfl

/-- The check value of R100, the CRC of the ASCII string "123456789". -/
theorem crc32_check : crc32 [0x31, 0x32, 0x33, 0x34, 0x35, 0x36, 0x37, 0x38, 0x39] = 0xCBF43926 := by
  decide +kernel

/-- R111: the remainder after a message and its CRC, whatever the message. -/
theorem crc32_append_le32_crc32 (m : List Byte) : crc32 (m ++ le32 (crc32 m)) = 0x2144DF1C := by
  have hcancel : crcFold crcInitValue m ^^^ crc32 m = crcXorOut := by
    rw [crc32, ← BitVec.xor_assoc, BitVec.xor_self, BitVec.zero_xor]
  have hresidue : crcBits 32 crcXorOut ^^^ crcXorOut = 0x2144DF1C := by decide +kernel
  rw [crc32, crcFold_append, crcFold_le32, hcancel, hresidue]

/-- The printed table (R103) is its definition at 0, 1, ..., 255. -/
theorem crcTable_eq_map : crcTable = (List.range 256).map fun n => crcUpdate 0 (BitVec.ofNat 8 n) := by
  decide +kernel

theorem crcTableAt_eq_crcUpdate (n : Byte) : crcTableAt n = crcUpdate 0 n := by
  simp [crcTableAt, crcTable_eq_map, List.getD_eq_getElem?_getD, n.isLt]

/-- R104: the table-driven fold of the model is the bitwise one. -/
theorem crcUpdate_eq_crcUpdateByTable (c : Word) (b : Byte) : crcUpdate c b = crcUpdateByTable c b := by
  have hstep := crcBits_eight_xor 0#32 (c ^^^ b.setWidth 32)
  rw [BitVec.ushiftRight_xor_distrib, setWidth_ushiftRight_eight, BitVec.xor_zero, BitVec.zero_xor] at hstep
  rw [crcUpdateByTable, crcTableAt_eq_crcUpdate]
  exact hstep

theorem crcBits_injective (k : Nat) : Function.Injective (crcBits k) := fun c d h => by
  have hdiff : crcBits k (c ^^^ d) = 0#32 := by rw [crcBits_xor, BitVec.xor_eq_zero_iff.2 h]
  exact BitVec.xor_eq_zero_iff.1 (crcBits_eq_zero k hdiff)

/-- Different bytes leave different remainders. -/
theorem crcUpdate_injective (c : Word) : Function.Injective (crcUpdate c) := fun a b h => by
  have hword : a.setWidth 32 = b.setWidth 32 := (BitVec.xor_right_inj c).1 (crcBits_injective 8 h)
  simpa using congrArg (BitVec.setWidth 8) hword

/-- Different remainders stay different over the same bytes. -/
theorem crcFold_injective (m : List Byte) : Function.Injective (crcFold · m) := fun c d h => by
  have hdiff : crcBits (8 * m.length) (c ^^^ d) = 0#32 := by rw [← crcFold_xor, BitVec.xor_eq_zero_iff.2 h]
  exact BitVec.xor_eq_zero_iff.1 (crcBits_eq_zero _ hdiff)

/-- The CRC of a message determines each of its bytes from the others. -/
theorem crc32_set_injective {m : List Byte} {k : Nat} (hk : k < m.length) :
    Function.Injective fun x => crc32 (m.set k x) := fun x y h => by
  simp only [crc32, List.set_eq_take_append_cons_drop, hk, if_true, crcFold_append, crcFold] at h
  exact crcUpdate_injective _ (crcFold_injective _ ((BitVec.xor_left_inj _).1 h))

/-- R112: the flipped bit makes its byte another, and so the CRC. -/
theorem crc32_flipBit_ne {m : List Byte} {k b : Nat} (hk : k < m.length) (hb : b < 8) :
    crc32 (flipBit m k b) ≠ crc32 m := fun h => by
  have hself : m.set k (byteAt m k) = m := by simp [byteAt, hk]
  have hbyte : byteAt m k ^^^ (1#8 <<< b) = byteAt m k ^^^ 0 := by
    apply crc32_set_injective hk
    simpa [hself, flipBit] using h
  have hmask : (1#8 <<< b).getLsbD b = true := by simp [hb]
  rw [(BitVec.xor_right_inj _).1 hbyte] at hmask
  simp at hmask

end Sys2Proof.Machine

/-! The four operations of CRCU, and runs of them (40_crc.md R105 to R108, R110). -/

namespace Sys2Proof.Machine

theorem exec_crcInit (s : State) : exec .crcInit s =
    .next { s with crcState := crcInitValue, results := s.results ++ [.completed] } := rfl

theorem exec_crcUpdate (b : Byte) (s : State) : exec (.crcUpdate b) s =
    .next { s with crcState := crcUpdate s.crcState b, results := s.results ++ [.completed] } := rfl

theorem exec_crcFinal (s : State) : exec .crcFinal s =
    .next { s with results := s.results ++ [.crc (s.crcState ^^^ crcXorOut)] } := rfl

theorem exec_crcBlock (d : List Byte) (s : State) : exec (.crcBlock d) s =
    .next { s with results := s.results ++ [.crc (crc32 d)] } := rfl

/-- CRC.UPDATEs and CRC.FINAL from any remainder. -/
theorem execAll_crcUpdates_crcFinal (s : State) (m : List Byte) :
    execAll (m.map .crcUpdate ++ [.crcFinal]) s = .next { s with
      crcState := crcFold s.crcState m
      results := s.results ++ List.replicate m.length .completed ++ [.crc (crcFold s.crcState m ^^^ crcXorOut)] } := by
  rw [execAll_append (execAll_crcUpdates s m)]
  rfl

/-- CRC.INIT, CRC.UPDATEs and CRC.FINAL: the incremental CRC (R107, R110). -/
theorem execAll_crcInit_crcUpdates_crcFinal (s : State) (m : List Byte) :
    execAll (.crcInit :: m.map .crcUpdate ++ [.crcFinal]) s = .next { s with
      crcState := crcFold crcInitValue m
      results := s.results ++ [.completed] ++ List.replicate m.length .completed ++ [.crc (crc32 m)] } :=
  execAll_crcUpdates_crcFinal ((s.writeCrc crcInitValue).respond .completed) m

end Sys2Proof.Machine

namespace Sys2Proof

open Sys2Proof.Machine

/-- Settles O17: the run of R107 is the incremental CRC of `m`, then the CRC.UPDATEs of `n` from the remainder that
CRC.FINAL left. -/
theorem crcFinalReturnsWithoutDisturbing : Obligations.CrcFinalReturnsWithoutDisturbing := by
  refine ⟨rfl, exec_crcFinal, fun s => ?_, fun s => ?_, fun s m n => ?_, fun s => ?_⟩
  · simp [execAll, exec_crcInit, exec_crcFinal, crcInitValue, crcXorOut]
  · simp [execAll, exec_crcFinal, crcXorOut]
  · have hfold : crcFold (crcFold crcInitValue m) n ^^^ crcXorOut = crc32 (m ++ n) := by rw [crc32, crcFold_append]
    rw [List.append_assoc, execAll_append (execAll_crcInit_crcUpdates_crcFinal s m), execAll_crcUpdates_crcFinal]
    exact ⟨_, rfl, by rw [List.getLast?_concat, hfold]⟩
  · have hstate := crc32_xorOut [0x31, 0x32, 0x33, 0x34, 0x35, 0x36, 0x37, 0x38, 0x39]
    rw [crc32_check] at hstate
    exact ⟨_, execAll_crcInit_crcUpdates_crcFinal s _, by rw [← hstate]; rfl,
      by rw [List.getLast?_concat, crc32_check]⟩

/-- Settles O20, by the table's definition and the linearity of the eight passes. -/
theorem tableFoldEqualsBitwiseFold : Obligations.TableFoldEqualsBitwiseFold :=
  crcUpdate_eq_crcUpdateByTable

/-- Settles O22: both return the fold of `m ++ n`. -/
theorem incrementalAndOneShotCrcAgree : Obligations.IncrementalAndOneShotCrcAgree := fun s m n =>
  ⟨_, _, execAll_crcInit_crcUpdates_crcFinal s (m ++ n), exec_crcBlock _ s, List.getLast?_concat ..,
    List.getLast?_concat ..⟩

/-- Settles O23: a frame ends with the CRC of what stands before it. -/
theorem crcResidueIsConstant : Obligations.CrcResidueIsConstant :=
  ⟨crc32_append_le32_crc32, fun magic x => crc32_append_le32_crc32 (x.body magic)⟩

/-- Settles O24: the flipped bit makes its byte another, and the CRC determines each byte from the others. -/
theorem singleBitFlipChangesTheCrc : Obligations.SingleBitFlipChangesTheCrc :=
  fun _ _ _ => crc32_flipBit_ne

/-- Settles O13: from every remainder, CRC.INIT writes the same value. -/
theorem crcInitRestartsTheRunningCrc : Obligations.CrcInitRestartsTheRunningCrc := by
  refine ⟨rfl, exec_crcInit, fun s => ?_, rfl⟩
  simp [execAll, exec_crcInit, crcInitValue]

/-- Settles O14: the loop body is the model's `crcBit`, iterated. -/
theorem crcUpdateIsTheBitwiseFold : Obligations.CrcUpdateIsTheBitwiseFold :=
  fun c b => crcBits_eq_iterate 8 (c ^^^ b.setWidth 32)

/-- Settles O15: the fold of a byte into a zero remainder is the byte's table entry; the other values are computed. -/
theorem crcUpdateFoldsOneByte : Obligations.CrcUpdateFoldsOneByte := by
  obtain ⟨-, -, -, -, -, -, hword, -⟩ := opWordsAreTheStatedValues
  exact ⟨hword, fun s b => exec_crcUpdate b s, by decide +kernel, by decide +kernel,
    fun b => (crcTableAt_eq_crcUpdate b).symm, by decide +kernel⟩

/-- Settles O16: the model's own recursion is the left fold. -/
theorem crcOfASequenceIsTheFold : Obligations.CrcOfASequenceIsTheFold := fun m => by
  rw [crc32, crcFold_eq_foldl]
  rfl

/-- Settles O18: the answer by definition, the corner values computed. -/
theorem crcBlockReturnsTheCrcOfItsOperand : Obligations.CrcBlockReturnsTheCrcOfItsOperand := by
  obtain ⟨-, -, hword, -⟩ := opWordsAreTheStatedValues
  exact ⟨hword, fun s d => exec_crcBlock d s, by decide +kernel, by decide +kernel, by decide +kernel,
    by decide +kernel, crc32_check⟩

/-- Settles O19: the printed list is the definition's at 0 to 255. -/
theorem crcTableMatchesItsDefinition : Obligations.CrcTableMatchesItsDefinition :=
  ⟨by simp [crcTable_eq_map], crcTableAt_eq_crcUpdate⟩

end Sys2Proof

/-! ENC.FRAME: what it answers, and the bytes of the frame it returns (41_encoder.md R130 to R132, R135, R137). -/

namespace Sys2Proof.Machine

/-- R130: for a payload that fits, ENC.FRAME returns the message's frame and writes nothing else. -/
theorem exec_encFrame {payload : List Byte} (h : payload.length < 2 ^ 32) (cmd : Byte) (id : Half) (s : State) :
    exec (.encFrame cmd id payload) s =
      .next { s with results := s.results ++ [.bytes (Message.wire s.build.magic ⟨cmd, id, payload⟩)] } :=
  if_pos h

/-- R132: a payload that does not fit is refused. -/
theorem exec_encFrame_refused {payload : List Byte} (h : 2 ^ 32 ≤ payload.length) (cmd : Byte) (id : Half) (s : State) :
    exec (.encFrame cmd id payload) s = .refused (.payloadTooLong payload.length) :=
  if_neg (Nat.not_lt.2 h)

/-- A step refuses only an illegal op word: a data operand read from issued bytes fits its length field (R74, R132). -/
theorem step_refused {s : State} {r : Refusal} (h : step s = .refused r) : ∃ w, r = .illegalOp w := by
  unfold step at h
  split at h
  case h_1 i rest hf =>
    obtain ⟨cmd, id, payload, rfl, hlong, -⟩ := exec_refused h
    obtain ⟨-, hfits, -⟩ := decodedOperationReencodes _ _ _ hf
    exact absurd (of_decide_eq_true hfits) (Nat.not_lt.2 hlong)
  case h_2 w _ => cases h; exact ⟨w, rfl⟩
  case h_3 => cases h

/-- Byte `k` of a field that stands after `a`. -/
theorem byteAt_field (a : List Byte) {f : List Byte} {k : Nat} (h : k < f.length) (r : List Byte) :
    byteAt (a ++ (f ++ r)) (a.length + k) = byteAt f k := by
  rw [byteAt_append_right, byteAt_append_left h]

section Wire

variable (magic : Word) (m : Message) {k : Nat}

/-- Frame bytes 0 to 3. -/
theorem Message.byteAt_wire_magic (h : k < 4) : byteAt (m.wire magic) k = byteAt (le32 magic) k := by
  simpa [Message.wire, Message.body] using byteAt_field [] (f := le32 magic) h _

/-- Frame byte 4. -/
theorem Message.byteAt_wire_version : byteAt (m.wire magic) 4 = 0x01 := rfl

/-- Frame byte 5. -/
theorem Message.byteAt_wire_cmd : byteAt (m.wire magic) 5 = m.cmd := rfl

/-- Frame bytes 6 and 7. -/
theorem Message.byteAt_wire_id (h : k < 2) : byteAt (m.wire magic) (6 + k) = byteAt (le16 m.id) k := by
  simpa [Message.wire, Message.body] using byteAt_field (le32 magic ++ [0x01, m.cmd]) (f := le16 m.id) h _

/-- Frame bytes 8 to 11. -/
theorem Message.byteAt_wire_length (h : k < 4) :
    byteAt (m.wire magic) (8 + k) = byteAt (le32 (BitVec.ofNat 32 m.payload.length)) k := by
  simpa [Message.wire, Message.body] using
    byteAt_field (le32 magic ++ [0x01, m.cmd] ++ le16 m.id) (f := le32 (BitVec.ofNat 32 m.payload.length)) h _

/-- The payload starts at frame byte 12. -/
theorem Message.byteAt_wire_payload (h : k < m.payload.length) :
    byteAt (m.wire magic) (12 + k) = byteAt m.payload k := by
  simpa [Message.wire, Message.body] using
    byteAt_field (le32 magic ++ [0x01, m.cmd] ++ le16 m.id ++ le32 (BitVec.ofNat 32 m.payload.length)) h _

/-- The bytes the CRC covers (R69). -/
theorem Message.take_wire : (m.wire magic).take (12 + m.payload.length) = m.body magic := by
  rw [← m.body_length magic, Message.wire, List.take_left]

/-- The trailer follows the payload. -/
theorem Message.byteAt_wire_trailer :
    byteAt (m.wire magic) (12 + m.payload.length + k) =
      byteAt (le32 (crc32 ((m.wire magic).take (12 + m.payload.length)))) k := by
  rw [m.take_wire, ← m.body_length magic]
  exact byteAt_append_right _ _ k

variable {m}

/-- The length field reads back (R137). -/
theorem Message.rdLe32_wire_length (h : m.Fits) : (rdLe32 (m.wire magic) 8).toNat = m.payload.length := by
  simpa using m.wire_len h magic []

/-- The id field reads back (R137). -/
theorem Message.rdLe16_wire_id (h : m.Fits) : rdLe16 (m.wire magic) 6 = m.id := by
  simpa [frameOf, Message.received] using congrArg Frame.id (m.frameOf_wire h magic [])

/-- The last four bytes are the checksum of the bytes before them (R137), as DEC checks it. -/
theorem Message.rdLe32_wire_trailer (h : m.Fits) : rdLe32 (m.wire magic) ((m.wire magic).length - 4) =
    crc32 ((m.wire magic).take ((m.wire magic).length - 4)) := by
  have ⟨_, _, hcrc⟩ := m.wire_frameAtFront h magic []
  have htrailer : (m.wire magic).length - 4 = 12 + m.payload.length := by
    rw [m.wire_length]
    omega
  simpa [htrailer, m.rdLe32_wire_length magic h] using hcrc.symm

end Wire

end Sys2Proof.Machine

namespace Sys2Proof

open Sys2Proof.Machine

/-- Settles O26: a step refuses only illegal op words, since what it decodes has an operand that fits. -/
theorem encFrameRefusesOversizePayload : Obligations.EncFrameRefusesOversizePayload := by
  refine ⟨fun s cmd id _ h => exec_encFrame_refused h cmd id s, fun s n h => ?_⟩
  obtain ⟨_, hr⟩ := step_refused h
  cases hr

/-- Settles O27, field by field of the message's frame. -/
theorem encFrameByteOrder : Obligations.EncFrameByteOrder := fun s cmd id payload h =>
  ⟨_, exec_encFrame h cmd id s, fun _ => Message.byteAt_wire_magic _ _, Message.byteAt_wire_version _ _,
    Message.byteAt_wire_cmd _ _, fun _ => Message.byteAt_wire_id _ _, fun _ => Message.byteAt_wire_length _ _,
    fun _ => Message.byteAt_wire_payload _ ⟨cmd, id, payload⟩, fun _ _ => Message.byteAt_wire_trailer _ _,
    Message.wire_length _ _⟩

/-- Settles O28, field by field of the message's frame. -/
theorem encFrameFieldsReadBack : Obligations.EncFrameFieldsReadBack := fun s cmd id _ h =>
  ⟨_, exec_encFrame h cmd id s, Message.wire_length _ _, Message.rdLe32_wire_length _ h, Message.byteAt_wire_cmd _ _,
    Message.rdLe16_wire_id _ h, Message.rdLe32_wire_trailer _ h⟩

/-- Settles O25: the op word is R84's, and the example of R130 is computed. -/
theorem encFrameReturnsTheFrame : Obligations.EncFrameReturnsTheFrame := by
  obtain ⟨-, -, -, -, -, -, -, hword, -⟩ := opWordsAreTheStatedValues
  exact ⟨hword, fun s cmd id _ h => exec_encFrame h cmd id s, Message.wire_length, by decide +kernel⟩

/-- Settles O29: both return the frame of the message with the one `MAGIC`. -/
theorem encFrameDependsOnlyOnItsOperands : Obligations.EncFrameDependsOnlyOnItsOperands := by
  intro s t cmd id payload h hmagic
  refine ⟨_, exec_encFrame h cmd id s, ?_⟩
  rw [hmagic]
  exact exec_encFrame h cmd id t

end Sys2Proof

/-! DEC's operations, and what a run of them makes of frames, pieces of a frame and garbage
(42_decoder.md R150 to R179). -/

namespace Sys2Proof.Machine

theorem FrameAtFront.judge {magic : Word} {buf : List Byte} (h : FrameAtFront magic buf) :
    judge magic buf = .accept := (judge_accept_iff _ _).2 h

/-- Room passes to a state of the same build that would not get longer. -/
theorem fits_of_length_le {s t : State} {n k : Nat} (hs : s.Fits k) (hbuild : t.build = s.build)
    (hle : t.buf.length + n ≤ s.buf.length + k) : t.Fits n :=
  fun cap hcap => hle.trans (hs cap (hbuild ▸ hcap))

/-- R150: a push that fits appends. -/
theorem exec_decPush {s : State} {d : List Byte} (h : s.Fits d.length) : exec (.decPush d) s =
    .next { s with buf := s.buf ++ d, results := s.results ++ [.completed] } := by
  have hroom : execDecPush d s = .next ((s.bufAppend d).respond .completed) := by
    rw [execDecPush, if_pos ((s.hasRoom_iff _).2 h)]
  exact hroom

/-- R151: a push that does not fit is held. -/
theorem exec_decPush_held {s : State} {d : List Byte} (h : ¬ s.Fits d.length) : exec (.decPush d) s =
    .next { s with results := s.results ++ [.held .bufFull] } := by
  have hfull : execDecPush d s = .next (s.hold .bufFull) := by
    rw [execDecPush, if_neg fun e => h ((s.hasRoom_iff _).1 e)]
  exact hfull

/-- R152. -/
theorem exec_decReset (s : State) : exec .decReset s =
    .next { s with buf := [], results := s.results ++ [.completed] } := by
  have hdrop : s.buf.drop s.buf.length = [] := List.drop_length
  rw [← hdrop]
  rfl

/-- Where the scan ends on a verified frame, DEC.STEP returns it and removes its bytes (R161, R162). -/
theorem exec_decStep_frame {s : State} {left : List Byte} (hscan : scan s.build.magic s.buf = left)
    (h : FrameAtFront s.build.magic left) : exec .decStep s = .next { s with
      buf := left.drop (16 + (rdLe32 left 8).toNat), results := s.results ++ [.frame (frameOf left)] } := by
  subst hscan
  exact congrArg Host.Outcome.next (State.settle_accept (s := s.afterDiscards) h)

/-- Where the scan ends on anything else, DEC.STEP keeps it and returns NEED_MORE_DATA (R154, R155, R158). -/
theorem exec_decStep_needMoreData {s : State} {left : List Byte} (hscan : scan s.build.magic s.buf = left)
    (h : ¬ FrameAtFront s.build.magic left) : exec .decStep s = .next { s with
      buf := left, results := s.results ++ [.needMoreData] } := by
  subst hscan
  exact congrArg Host.Outcome.next (State.settle_wait (s := s.afterDiscards) h)

theorem scan_of_frame {magic : Word} {buf : List Byte} (h : FrameAtFront magic buf) : scan magic buf = buf :=
  scan_stops (by simp [h.judge])

/-- Where the loop waits, DEC.STEP removes nothing. -/
theorem exec_decStep_of_wait {s : State} (h : judge s.build.magic s.buf = .wait) :
    exec .decStep s = .next { s with results := s.results ++ [.needMoreData] } :=
  exec_decStep_needMoreData (scan_stops (by simp [h])) fun hf => by simp [hf.judge] at h

/-- Where the loop discards, DEC.STEP is what it is without the first byte (R154, R160). -/
theorem exec_decStep_of_discard {s : State} (h : judge s.build.magic s.buf = .discard) :
    exec .decStep s = exec .decStep { s with buf := s.buf.drop 1 } := by
  have hafter : s.afterDiscards = State.afterDiscards { s with buf := s.buf.drop 1 } := by
    rw [State.afterDiscards, scan_discards h]
    rfl
  exact congrArg (fun t : State => Host.Outcome.next t.settle) hafter

/-- A message's frame at the front of `buf` is returned, and what follows it is kept (R170). -/
theorem exec_decStep_wire {s : State} {m : Message} {r : List Byte} (hm : m.Fits)
    (hscan : scan s.build.magic s.buf = m.wire s.build.magic ++ r) : exec .decStep s = .next { s with
      buf := r, results := s.results ++ [.frame m.received] } := by
  have hdrop : (m.wire s.build.magic ++ r).drop (16 + m.payload.length) = r :=
    List.drop_left' (m.wire_length s.build.magic)
  rw [exec_decStep_frame hscan (m.wire_frameAtFront hm _ r), m.wire_len hm, m.frameOf_wire hm, hdrop]

/-- Abutting frames come out one per DEC.STEP, and what follows them is kept (R171). -/
theorem execAll_decSteps_wireAll (ms : List Message) (hms : ∀ m ∈ ms, m.Fits) (r : List Byte) (s : State)
    (hbuf : s.buf = wireAll s.build.magic ms ++ r) :
    execAll (List.replicate ms.length .decStep) s = .next { s with
      buf := r, results := s.results ++ ms.map fun m => .frame m.received } := by
  induction ms generalizing s with
  | nil => simp [execAll, ← (show s.buf = r by simpa [wireAll] using hbuf)]
  | cons m ms ih =>
    obtain ⟨hm, hms⟩ : m.Fits ∧ ∀ m ∈ ms, m.Fits := by simpa using hms
    have hfront : s.buf = m.wire s.build.magic ++ (wireAll s.build.magic ms ++ r) := by
      simpa [wireAll] using hbuf
    have hstep := exec_decStep_wire hm (by rw [hfront, scan_of_frame (m.wire_frameAtFront hm _ _)])
    rw [List.length_cons, List.replicate_succ, execAll, hstep]
    simpa using ih hms { s with
      buf := wireAll s.build.magic ms ++ r, results := s.results ++ [.frame m.received] } rfl

/-- A part of a message's frame is waited for, byte by byte (R172). -/
theorem judge_wire_part {m : Message} (hm : m.Fits) {magic : Word} {p r : List Byte} (hr : r ≠ [])
    (h : p ++ r = m.wire magic) : judge magic p = .wait := by
  have hshort : p.length < 16 + m.payload.length := by
    have := List.length_pos_of_ne_nil hr
    rw [← m.wire_length magic, ← h, List.length_append]
    omega
  have hmagic : (p ++ r).take 4 = le32 magic := by simpa [h] using m.wire_magic magic []
  rw [judge_wait_iff]
  by_cases h4 : p.length < 4
  · left
    refine ⟨h4, ?_⟩
    rw [← hmagic, List.take_take, Nat.min_eq_left h4.le, List.take_left]
  have hp : p.take 4 = le32 magic := by rwa [List.take_append_of_le_length (by omega)] at hmagic
  by_cases h12 : p.length < 12
  · exact .inr (.inl ⟨hp, h12⟩)
  · have hlen : (rdLe32 p 8).toNat = m.payload.length := by
      rw [← m.rdLe32_wire_length magic hm, ← h, rdLe32_append_left (by omega)]
    exact .inr (.inr ⟨hp, by omega, by omega⟩)

/-- The host's way with pieces: each is pushed, and a DEC.STEP follows (R172). -/
def pushAndStepEach (pieces : List (List Byte)) : List Instr := pieces.flatMap fun p => [.decPush p, .decStep]

/-- A push that fits, and the DEC.STEP after it. -/
theorem execAll_push_step {s : State} {d : List Byte} (h : s.Fits d.length) : execAll [.decPush d, .decStep] s =
    exec .decStep { s with buf := s.buf ++ d, results := s.results ++ [.completed] } := by
  simp only [execAll, exec_decPush h]
  cases exec .decStep { s with buf := s.buf ++ d, results := s.results ++ [.completed] } <;> rfl

/-- A push that fits behind bytes for which the loop then waits. -/
theorem execAll_push_step_of_wait {s : State} {d : List Byte} (h : s.Fits d.length)
    (hj : judge s.build.magic (s.buf ++ d) = .wait) : execAll [.decPush d, .decStep] s = .next { s with
      buf := s.buf ++ d, results := s.results ++ [.completed, .needMoreData] } := by
  rw [execAll_push_step h, exec_decStep_of_wait hj]
  simp

/-- A push that fits and brings a message's frame to the front, with garbage that the scan drops before it. -/
theorem execAll_push_step_wire {s : State} {d r : List Byte} {m : Message} (hm : m.Fits) (h : s.Fits d.length)
    (hscan : scan s.build.magic (s.buf ++ d) = m.wire s.build.magic ++ r) :
    execAll [.decPush d, .decStep] s = .next { s with
      buf := r, results := s.results ++ [.completed, .frame m.received] } := by
  rw [execAll_push_step h, exec_decStep_wire hm hscan]
  simp

/-- A push that fits and makes a message's frame whole (R170, R172). -/
theorem execAll_push_step_whole_wire {s : State} {d : List Byte} {m : Message} (hm : m.Fits) (h : s.Fits d.length)
    (hwhole : s.buf ++ d = m.wire s.build.magic) : execAll [.decPush d, .decStep] s = .next { s with
      buf := [], results := s.results ++ [.completed, .frame m.received] } :=
  execAll_push_step_wire hm h <| by
    simpa [hwhole] using scan_of_frame (m.wire_frameAtFront hm s.build.magic [])

/-- Until the last byte of the frame is there, every piece is kept and answered NEED_MORE_DATA (R172). -/
theorem execAll_pieces_of_part {m : Message} (hm : m.Fits) {r : List Byte} (hr : r ≠ []) (ps : List (List Byte))
    (s : State) (hfits : s.Fits ps.flatten.length) (h : s.buf ++ ps.flatten ++ r = m.wire s.build.magic) :
    execAll (pushAndStepEach ps) s = .next { s with
      buf := s.buf ++ ps.flatten
      results := s.results ++ (List.replicate ps.length [.completed, .needMoreData]).flatten } := by
  induction ps generalizing s with
  | nil => simp [pushAndStepEach, execAll]
  | cons p ps ih =>
    have hp : s.Fits p.length := fits_of_length_le hfits rfl (by simp)
    have hrest : State.Fits { s with
        buf := s.buf ++ p, results := s.results ++ [.completed, .needMoreData] } ps.flatten.length :=
      fits_of_length_le hfits rfl (by simp [Nat.add_assoc])
    have hwait := judge_wire_part (p := s.buf ++ p) (r := ps.flatten ++ r) hm (by simp [hr]) (by simpa using h)
    have hrun : execAll (pushAndStepEach (p :: ps)) s = _ :=
      execAll_append (execAll_push_step_of_wait hp hwait) (pushAndStepEach ps)
    rw [hrun, ih _ hrest (by simpa using h)]
    simp [List.replicate_succ]

/-- The last piece makes the frame whole, and it is returned (R172). -/
theorem execAll_pieces_of_whole {m : Message} (hm : m.Fits) (ps : List (List Byte)) {p : List Byte} (hp : p ≠ [])
    {s : State} (hfits : s.Fits (ps ++ [p]).flatten.length)
    (h : s.buf ++ (ps ++ [p]).flatten = m.wire s.build.magic) :
    execAll (pushAndStepEach (ps ++ [p])) s = .next { s with
      buf := []
      results := s.results ++ (List.replicate ps.length [.completed, .needMoreData]).flatten ++
        [.completed, .frame m.received] } := by
  have hparts := execAll_pieces_of_part hm hp ps s (fits_of_length_le hfits rfl (by simp)) (by simpa using h)
  have hsplit : pushAndStepEach (ps ++ [p]) = pushAndStepEach ps ++ [.decPush p, .decStep] := by
    simp [pushAndStepEach]
  rw [hsplit, execAll_append hparts]
  exact execAll_push_step_whole_wire hm (fits_of_length_le hfits rfl (by simp [Nat.add_assoc])) (by simpa using h)

/-- Where the magic does not stand at the front and there are four bytes to tell, the byte there is discarded. -/
theorem judge_of_not_occursAt {magic : Word} {bs : List Byte} {j : Nat} (h : occursAt magic bs j = false)
    (hlen : j + 4 ≤ bs.length) : judge magic (bs.drop j) = .discard := by
  have hne : (bs.drop j).take 4 ≠ le32 magic := by
    simpa [occursAt, slice, List.drop_take] using h
  have hmiss : ¬ magicMatches magic (bs.drop j) = true := fun e =>
    hne ((magicMatches_long (by rw [List.length_drop]; omega)).1 e)
  rw [judge_eq, if_neg hmiss]

/-- The scan passes garbage in front of a message's frame and stops there (R173). -/
theorem scan_garbage_wire {m : Message} (hm : m.Fits) {magic : Word} {g h : List Byte}
    (hno : ∀ j, j < g.length → occursAt magic (g ++ m.wire magic) j = false) :
    scan magic (g ++ m.wire magic ++ h) = m.wire magic ++ h := by
  have hwire := m.wire_length magic
  rw [List.append_assoc, scan_past, scan_of_frame (m.wire_frameAtFront hm magic h)]
  intro j hj
  apply judge_of_not_occursAt
  · rw [← hno j hj]
    simp only [occursAt, slice, ← List.append_assoc]
    rw [List.take_append_of_le_length (by rw [List.length_append]; omega)]
  · simp only [List.length_append]
    omega

/-- Without a magic in `buf` the scan leaves only the start of one (R154). -/
theorem residueMagic_scan {magic : Word} {buf : List Byte} (hno : ∀ j, occursAt magic buf j = false) :
    ResidueMagic magic (scan magic buf) := by
  obtain ⟨g, hg, -⟩ := scan_discarded magic buf
  have hmagic : ¬ (scan magic buf).take 4 = le32 magic := fun e => by
    have := hno g.length
    rw [hg] at this
    simp [occursAt, slice, List.drop_take, e] at this
  cases hj : judge magic (scan magic buf) with
  | discard => exact absurd hj (judge_scan magic buf)
  | accept => exact absurd ((judge_accept_iff _ _).1 hj).1 hmagic
  | wait =>
    obtain hm | hh | hf := (judge_wait_iff _ _).1 hj
    · exact hm
    · exact absurd hh.1 hmagic
    · exact absurd hf.1 hmagic

/-- Without a magic in `buf` DEC.STEP returns no frame (R153, R154). -/
theorem exec_decStep_of_no_magic {s : State} (hno : ∀ j, occursAt s.build.magic s.buf j = false) :
    exec .decStep s = .next { s with
      buf := scan s.build.magic s.buf, results := s.results ++ [.needMoreData] } :=
  exec_decStep_needMoreData rfl fun hf => absurd (take_four_length hf.1) (Nat.not_le.2 (residueMagic_scan hno).1)

/-- Everything a DEC.STEP can do: it discards positions at which no verified frame starts, and then returns the frame it
has come to, or NEED_MORE_DATA (R153, R177). -/
theorem exec_decStep_cases (s : State) : ∃ g left, s.buf = g ++ left ∧
    (∀ j, j < g.length → ¬ FrameAtFront s.build.magic (s.buf.drop j)) ∧
    ((¬ FrameAtFront s.build.magic left ∧
      exec .decStep s = .next { s with buf := left, results := s.results ++ [.needMoreData] }) ∨
     (FrameAtFront s.build.magic left ∧ exec .decStep s = .next { s with
        buf := left.drop (frameOf left).consumed, results := s.results ++ [.frame (frameOf left)] })) := by
  obtain ⟨g, hg, hdiscard⟩ := scan_discarded s.build.magic s.buf
  refine ⟨g, _, hg, fun j hj hf => by simpa [hf.judge] using hdiscard j hj, ?_⟩
  by_cases hf : FrameAtFront s.build.magic (scan s.build.magic s.buf)
  · exact .inr ⟨hf, exec_decStep_frame rfl hf⟩
  · exact .inl ⟨hf, exec_decStep_needMoreData rfl hf⟩

end Sys2Proof.Machine

/-! A frame with one bit flipped (R174). -/

namespace Sys2Proof.Machine

@[simp] theorem flipBit_length (f : List Byte) (k b : Nat) : (flipBit f k b).length = f.length := List.length_set

theorem byteAt_flipBit_of_ne {f : List Byte} {k i : Nat} (h : i ≠ k) (b : Nat) :
    byteAt (flipBit f k b) i = byteAt f i := by
  simp [byteAt, flipBit, List.getD_eq_getElem?_getD, h.symm]

/-- A flipped bit changes its byte, since the CRC tells the two sequences apart (R112). -/
theorem byteAt_flipBit_ne {f : List Byte} {k b : Nat} (hk : k < f.length) (hb : b < 8) :
    byteAt (flipBit f k b) k ≠ byteAt f k := fun h => by
  have hset : flipBit f k b = f := by
    have hbyte : byteAt f k ^^^ (1#8 <<< b) = byteAt f k := by
      simpa [byteAt, flipBit, hk] using h
    rw [flipBit, hbyte]
    simp [byteAt, hk]
  exact crc32_flipBit_ne hk hb (congrArg crc32 hset)

/-- Equal words have equal bytes. -/
theorem byteAt_eq_of_rdLe32_eq {s t : List Byte} {i k : Nat} (h : rdLe32 s i = rdLe32 t i) (hs : i + 4 ≤ s.length)
    (ht : i + 4 ≤ t.length) (hik : i ≤ k) (hk : k < i + 4) : byteAt s k = byteAt t k := by
  have hslice : slice s i (i + 4) = slice t i (i + 4) := by rw [← le32_rdLe32 hs, ← le32_rdLe32 ht, h]
  have hread (u : List Byte) : byteAt (slice u i (i + 4)) (k - i) = byteAt u k := by
    rw [slice, byteAt_drop, byteAt_take (by omega), Nat.add_sub_cancel' hik]
  rw [← hread s, ← hread t, hslice]

theorem rdLe32_flipBit_of_outside {f : List Byte} {k i : Nat} (h : k < i ∨ i + 4 ≤ k) (b : Nat) :
    rdLe32 (flipBit f k b) i = rdLe32 f i := by
  simp only [rdLe32]
  rw [byteAt_flipBit_of_ne (by omega), byteAt_flipBit_of_ne (by omega), byteAt_flipBit_of_ne (by omega),
    byteAt_flipBit_of_ne (by omega)]

theorem take_flipBit {f : List Byte} {k n : Nat} (h : n ≤ k) (b : Nat) : (flipBit f k b).take n = f.take n :=
  List.take_set_of_le h

/-- Bytes that end with the CRC of those before them have the residue as their CRC (R111). -/
theorem crc32_of_checksum {f : List Byte} {n : Nat} (hlen : f.length = n + 4) (h : crc32 (f.take n) = rdLe32 f n) :
    crc32 f = 0x2144DF1C := by
  have htrailer : le32 (crc32 (f.take n)) = f.drop n := by
    rw [h, le32_rdLe32 hlen.ge, slice, List.take_of_length_le hlen.le]
  have := crc32_append_le32_crc32 (f.take n)
  rwa [htrailer, List.take_append_drop] at this

/-- Behind the magic, a flipped bit leaves it whole. -/
theorem take_four_flipBit_wire (m : Message) (magic : Word) {k : Nat} (b : Nat) (h : 4 ≤ k) :
    (flipBit (m.wire magic) k b).take 4 = le32 magic := by
  rw [take_flipBit h]
  simpa using m.wire_magic magic []

section FlippedWire

variable {m : Message} {magic : Word} {k b : Nat} (hk : k < (m.wire magic).length) (hb : b < 8)

include hk hb

/-- A bit flipped in the magic spoils it (R174). -/
theorem magicMiss_flipBit_wire (h : k < 4) : MagicMiss magic (flipBit (m.wire magic) k b) := by
  have hwire := m.wire_length magic
  have hmagic : (m.wire magic).take 4 = le32 magic := by simpa using m.wire_magic magic []
  have hlen : min 4 (flipBit (m.wire magic) k b).length = 4 := by simp; omega
  rw [MagicMiss, hlen, List.take_of_length_le (l := le32 magic) (by simp), ← hmagic]
  intro htake
  apply byteAt_flipBit_ne hk hb
  rw [← byteAt_take h, htake, byteAt_take h]

/-- A bit flipped behind the magic and outside the length field spoils the checksum: a checksum that matched would give
the flipped frame the CRC of the frame itself, the residue of R111 (R174). -/
theorem spuriousAtFront_flipBit_wire (hm : m.Fits) (h4 : 4 ≤ k) (hlen : k < 8 ∨ 12 ≤ k) :
    SpuriousAtFront magic (flipBit (m.wire magic) k b) := by
  have hwire := m.wire_length magic
  have hfield : (rdLe32 (flipBit (m.wire magic) k b) 8).toNat = m.payload.length := by
    rw [rdLe32_flipBit_of_outside hlen, m.rdLe32_wire_length magic hm]
  refine ⟨take_four_flipBit_wire m magic b h4, ?_, fun hcrc => crc32_flipBit_ne hk hb ?_⟩
  · rw [hfield, flipBit_length, hwire]
  · have hend : (flipBit (m.wire magic) k b).length = 12 + m.payload.length + 4 := by
      rw [flipBit_length]
      omega
    rw [hfield] at hcrc
    rw [crc32_of_checksum hend hcrc]
    exact (crc32_append_le32_crc32 (m.body magic)).symm

/-- A bit flipped in the length field changes the length declared (R174). -/
theorem rdLe32_flipBit_wire_ne (hm : m.Fits) (h8 : 8 ≤ k) (h12 : k < 12) :
    (rdLe32 (flipBit (m.wire magic) k b) 8).toNat ≠ m.payload.length := fun h => by
  have hwire := m.wire_length magic
  rw [← m.rdLe32_wire_length magic hm] at h
  exact byteAt_flipBit_ne hk hb
    (byteAt_eq_of_rdLe32_eq (BitVec.eq_of_toNat_eq h) (by rw [flipBit_length]; omega) (by omega) h8 h12)

end FlippedWire

end Sys2Proof.Machine

namespace Sys2Proof

open Sys2Proof.Machine

/-- Settles O41: the frame ENC makes, pushed to an empty `buf`, is the message's frame at the front. -/
theorem decodedFrameIsTheEncodedOne : Obligations.DecodedFrameIsTheEncodedOne := by
  intro s cmd id payload hpayload hbuf hfits
  obtain ⟨-, -, -, -, -, -, -, -, -, -, -, -, hraw⟩ := commandByteMapIsTotal
  have hm : (⟨cmd, id, payload⟩ : Message).Fits := hpayload
  have hroom : s.Fits (Message.wire s.build.magic ⟨cmd, id, payload⟩).length := by rwa [Message.wire_length]
  exact ⟨_, exec_encFrame hpayload cmd id s, execAll_push_step_whole_wire hm hroom (by rw [hbuf, List.nil_append]),
    hraw cmd⟩

/-- Settles O42: the first `k` frames come out by induction over them; after the last, `buf` is empty and the loop
waits. -/
theorem abuttingFramesDrainInOrder : Obligations.AbuttingFramesDrainInOrder := by
  intro s ms hms hbuf hfits
  have hpush (is : List Instr) : execAll (.decPush (wireAll s.build.magic ms) :: is) s = execAll is { s with
      buf := wireAll s.build.magic ms, results := s.results ++ [.completed] } := by
    rw [execAll, exec_decPush hfits, hbuf, List.nil_append]
  have hdrain (k : Nat) (hk : k ≤ ms.length) :
      execAll (.decPush (wireAll s.build.magic ms) :: List.replicate k .decStep) s = .next { s with
        buf := wireAll s.build.magic (ms.drop k)
        results := s.results ++ .completed :: (ms.take k).map fun m => .frame m.received } := by
    have hsplit : wireAll s.build.magic ms =
        wireAll s.build.magic (ms.take k) ++ wireAll s.build.magic (ms.drop k) := by
      rw [wireAll, wireAll, wireAll, ← List.flatMap_append, List.take_append_drop]
    have hrun := execAll_decSteps_wireAll (ms.take k) (fun m hmem => hms m (List.mem_of_mem_take hmem))
      (wireAll s.build.magic (ms.drop k))
      { s with buf := wireAll s.build.magic ms, results := s.results ++ [.completed] } hsplit
    rw [List.length_take, Nat.min_eq_left hk] at hrun
    rw [hpush, hrun]
    simp
  refine ⟨hdrain, ?_⟩
  have hwait : exec .decStep { s with
        buf := []
        results := s.results ++ .completed :: ms.map fun m => .frame m.received } = _ :=
    exec_decStep_of_wait (judge_nil _)
  have hall := hdrain ms.length le_rfl
  rw [List.drop_length, List.take_length] at hall
  rw [List.replicate_succ', ← List.cons_append, execAll_append hall]
  simp [execAll, hwait, wireAll]

/-- Settles O44: all pieces but the last are a part of the frame, for which the loop waits; the last makes it whole. -/
theorem partialDeliveryYieldsOneFrame : Obligations.PartialDeliveryYieldsOneFrame := by
  intro s m pieces hm hbuf hfits hpieces hne
  constructor
  · intro j hj
    have hrest : (pieces.drop j).flatten ≠ [] := by
      refine List.flatten_ne_nil_iff.2 ⟨pieces[j], ?_, hne _ (List.getElem_mem hj)⟩
      rw [List.drop_eq_getElem_cons hj]
      exact List.mem_cons_self
    have hsplit : (pieces.take j).flatten ++ (pieces.drop j).flatten = m.wire s.build.magic := by
      rw [← List.flatten_append, List.take_append_drop, hpieces]
    have hroom : s.Fits (pieces.take j).flatten.length :=
      fits_of_length_le hfits rfl (by rw [← hsplit, List.length_append]; omega)
    have hparts := execAll_pieces_of_part hm hrest (pieces.take j) s hroom (by rwa [hbuf, List.nil_append])
    rwa [hbuf, List.nil_append, List.length_take, Nat.min_eq_left hj.le] at hparts
  · obtain rfl | ⟨ps, p, rfl⟩ := List.eq_nil_or_concat' pieces
    · have hempty : 0 = 16 + m.payload.length := by simpa [m.wire_length] using congrArg List.length hpieces
      omega
    · have hwhole := execAll_pieces_of_whole hm ps (hne p (by simp)) (by rwa [hpieces])
        (by rwa [hbuf, List.nil_append])
      simpa [pushAndStepEach] using hwhole

/-- Settles O45: the scan passes `g` and stops at the frame; without a magic in `h` only the start of one is left. -/
theorem garbageAroundAFrameIsDiscarded : Obligations.GarbageAroundAFrameIsDiscarded := by
  intro s m g h hm hbuf hfits hg
  have hframe : execAll [.decPush (g ++ m.wire s.build.magic ++ h), .decStep] s = .next { s with
      buf := h, results := s.results ++ [.completed, .frame m.received] } :=
    execAll_push_step_wire hm hfits (by rw [hbuf, List.nil_append, scan_garbage_wire hm hg])
  refine ⟨hframe, fun hh => ⟨scan s.build.magic h, scan_suffix _ _, residueMagic_scan hh, ?_⟩⟩
  have hrest : exec .decStep { s with buf := h, results := s.results ++ [.completed, .frame m.received] } = _ :=
    exec_decStep_of_no_magic hh
  have hrun := execAll_append hframe [.decStep]
  simpa [execAll, hrest] using hrun

/-- Settles O33: these are the verdicts on which the loop discards a byte. -/
theorem decStepDiscardsOneByteAndRescans : Obligations.DecStepDiscardsOneByteAndRescans :=
  fun _ h => exec_decStep_of_discard ((judge_discard_iff _ _).2 h)

/-- Settles O34: these are the verdicts on which the loop waits. -/
theorem decStepKeepsAnIncompleteFrame : Obligations.DecStepKeepsAnIncompleteFrame :=
  fun _ h => exec_decStep_of_wait ((judge_wait_iff _ _).2 h)

/-- Settles O35: the scan stops where it starts. -/
theorem decStepReturnsTheFrameAtFront : Obligations.DecStepReturnsTheFrameAtFront :=
  fun _ h => exec_decStep_frame (scan_of_frame h) h

/-- Settles O36: the bytes of the frame are the first `consumed` of what the discards leave. -/
theorem decStepAccountsForEveryByte : Obligations.DecStepAccountsForEveryByte := by
  intro s
  obtain ⟨g, left, hbuf, -, ⟨hno, hexec⟩ | ⟨hf, hexec⟩⟩ := exec_decStep_cases s
  · exact ⟨g, .inl ⟨left, hbuf, hno, hexec⟩⟩
  · have hsplit := List.take_append_drop (frameOf left).consumed left
    have ⟨_, hwhole, _⟩ := hf
    refine ⟨g, .inr ⟨left.take (frameOf left).consumed, left.drop (frameOf left).consumed, ?_, ?_, ?_, ?_⟩⟩
    · rw [List.append_assoc, hsplit, hbuf]
    · rwa [hsplit]
    · rw [hsplit]
      exact List.length_take_of_le hwhole
    · rwa [hsplit]

/-- Settles O37: what DEC.STEP leaves and returns is a function of the two. -/
theorem decStepDependsOnlyOnBufAndMagic : Obligations.DecStepDependsOnlyOnBufAndMagic := by
  intro s t hbuf hmagic
  refine ⟨_, _, exec_decStep s, ?_⟩
  rw [hbuf, hmagic]
  exact exec_decStep t

/-- Settles O38: a verified frame starts at no discarded position, so position `j` is left or in the frame returned. -/
theorem discardingSkipsNoFrame : Obligations.DiscardingSkipsNoFrame := by
  intro s t j h _ hj
  obtain ⟨g, left, hbuf, hskip, hcases⟩ := exec_decStep_cases s
  have hkept : s.buf.length - j ≤ left.length := by
    have hgj : g.length ≤ j := Nat.not_lt.1 fun hlt => hskip j hlt hj
    rw [hbuf, List.length_append]
    omega
  obtain ⟨-, hexec⟩ | ⟨-, hexec⟩ := hcases
  · cases hexec.symm.trans h
    exact .inl hkept
  · cases hexec.symm.trans h
    refine .inr ⟨frameOf left, List.getLast?_concat .., ?_⟩
    simp only [List.length_drop]
    omega

/-- Settles O40: the loop waits on what it has left. -/
theorem needMoreDataIsAFixedPoint : Obligations.NeedMoreDataIsAFixedPoint :=
  fun _ _ h hr => exec_decStep_of_wait (decStep_needMoreData_judge h hr)

/-- Settles O46: outside the length field the flip spoils the magic or the checksum; inside it the magic stands and the
declared length is another. -/
theorem flippedBitIsRejected : Obligations.FlippedBitIsRejected := by
  intro s m k b hm hk hb hbuf
  have hmagic (h8 : 8 ≤ k) : s.buf.take 4 = le32 s.build.magic := by
    rw [hbuf]
    exact take_four_flipBit_wire m _ b (by omega)
  refine ⟨fun hout => ?_, fun h8 h12 => ?_, fun h8 _ hshort => ?_, fun h8 _ hwhole hcrc => ?_⟩
  · apply decStepDiscardsOneByteAndRescans s
    rw [hbuf]
    by_cases h4 : k < 4
    · exact .inl (magicMiss_flipBit_wire hk hb h4)
    · exact .inr (spuriousAtFront_flipBit_wire hk hb hm (by omega) hout)
  · rw [hbuf]
    exact rdLe32_flipBit_wire_ne hk hb hm h8 h12
  · have h12 : 12 ≤ s.buf.length := by
      rw [hbuf, flipBit_length, m.wire_length]
      omega
    exact decStepKeepsAnIncompleteFrame s (.inr (.inr ⟨hmagic h8, h12, hshort⟩))
  · exact decStepDiscardsOneByteAndRescans s (.inr ⟨hmagic h8, hwhole, hcrc⟩)

/-- Settles O47: the push leaves the header as it is, and the frame incomplete. -/
theorem stallLastsUntilTheDeclaredLength : Obligations.StallLastsUntilTheDeclaredLength := by
  intro s d hmagic hheader hfits hshort
  refine execAll_push_step_of_wait hfits ((judge_wait_iff _ _).2 (.inr (.inr ⟨?_, ?_, ?_⟩)))
  · rwa [List.take_append_of_le_length (by omega)]
  · rw [List.length_append]
    omega
  · rwa [List.length_append, rdLe32_append_left (by omega)]

/-- Settles O51: the scan stops at once, and settling runs the row. -/
theorem decStepRunsTheCommandRow : Obligations.DecStepRunsTheCommandRow := by
  intro s hf
  have hafter : s.afterDiscards = s := by rw [State.afterDiscards, scan_of_frame hf]
  have hstep : exec .decStep s = .next s.afterDiscards.settle := rfl
  rw [hstep, hafter, State.settle, if_pos hf.judge, exec_decodeCommandByte]

/-- Settles O59: the scan leaves only the start of a magic. -/
theorem noMagicMeansNoFrame : Obligations.NoMagicMeansNoFrame :=
  fun _ hno => ⟨_, scan_suffix _ _, residueMagic_scan hno, exec_decStep_of_no_magic hno⟩

/-- Settles O30: the op word is R84's; the push fits or does not. -/
theorem decPushAppendsOrIsHeld : Obligations.DecPushAppendsOrIsHeld := by
  obtain ⟨-, -, -, hword, -⟩ := opWordsAreTheStatedValues
  refine ⟨hword, fun _ _ => exec_decPush, fun s d cap hcap hfull => exec_decPush_held fun hfits => ?_⟩
  exact absurd (hfits cap hcap) (Nat.not_le.2 hfull)

/-- Settles O32: DEC.RESET writes the same `buf` from every state. -/
theorem decResetEmptiesTheBuffer : Obligations.DecResetEmptiesTheBuffer := by
  refine ⟨rfl, exec_decReset, fun s => ?_, rfl⟩
  simp [execAll, exec_decReset]

end Sys2Proof

/-! What stops a step, and what holds an instruction (60_exceptions.md R200 to R203). -/

namespace Sys2Proof

open Sys2Proof.Machine

/-- Bytes the decoder refuses begin with the illegal op word that it names (R77). -/
theorem decode_illegalOp_splits {bs : List Byte} {w : Word} (h : decode bs = .illegalOp w) :
    ∃ rest, bs = le32 w ++ rest ∧ IllegalOpWord w := by
  unfold decode at h
  split at h
  case h_1 w0 w1 w2 w3 rest =>
    obtain ⟨hw, rfl⟩ := decodeOp_illegalOp_iff.1 h
    refine ⟨rest, ?_, hw⟩
    rw [le32_rdLe32 (by simp)]
    rfl
  case h_2 => cases h

end Sys2Proof

namespace Sys2Proof.Machine

/-- A command row is never held: it returns a frame, or nothing at all (log entry 8). -/
theorem exec_commandRow_not_held {i : Instr} {s t : State} (hi : isOperation i = false) (h : exec i s = .next t)
    (why : HoldReason) : t.results ≠ s.results ++ [.held why] := by
  obtain ⟨cmd, rfl⟩ | rfl := exec_commandRow_cases hi h
  · simp [State.surface]
  · simp

/-- Only DEC.PUSH is held: every other operation returns a result of its own kind (R79, R203). -/
theorem exec_held {i : Instr} {s t : State} {why : HoldReason} (h : exec i s = .next t)
    (hheld : t.results = s.results ++ [.held why]) : ∃ d, i = .decPush d := by
  cases hi : isOperation i with
  | false => exact absurd hheld (exec_commandRow_not_held hi h why)
  | true =>
    obtain ⟨-, r, hr, hcompleted, hcrc, hbytes, -, hstep⟩ := everyOperationReturnsOneResult i s t hi h
    obtain rfl : r = .held why := by simpa [hheld, eq_comm] using hr
    cases i with
    | decPush d => exact ⟨d, rfl⟩
    | crcInit | crcUpdate _ | decReset => simp at hcompleted
    | crcFinal | crcBlock _ => simp at hcrc
    | encFrame _ _ _ => simp at hbytes
    | decStep => simp at hstep
    | frameStartUpgrade | frameTransferChunk | frameEndUpgrade | frameAck | frameNack | frameUnknown _ => cases hi

/-- There is no room only under a finite capacity that the bytes exceed (R151). -/
theorem not_fits_iff {s : State} {n : Nat} :
    ¬ s.Fits n ↔ ∃ cap, s.build.bufCap = some cap ∧ cap < s.buf.length + n := by
  simp [State.Fits]

/-- A push is held only where it does not fit, and then `buf` and `crc_state` stay (R151). -/
theorem exec_decPush_of_held {d : List Byte} {s t : State} {why : HoldReason} (h : exec (.decPush d) s = .next t)
    (hheld : t.results = s.results ++ [.held why]) :
    ¬ s.Fits d.length ∧ t.buf = s.buf ∧ t.crcState = s.crcState := by
  by_cases hfits : s.Fits d.length
  · rw [exec_decPush hfits] at h
    cases h
    simp at hheld
  · rw [exec_decPush_held hfits] at h
    cases h
    exact ⟨hfits, rfl, rfl⟩

end Sys2Proof.Machine

namespace Sys2Proof

open Sys2Proof.Machine

/-- Settles O5: there is no fault, and the one refusal a step makes is the decoder's, of the word it reads. -/
theorem stepCompletesUnlessOpWordIllegal : Obligations.StepCompletesUnlessOpWordIllegal := by
  intro s
  cases hs : step s with
  | next t => exact .inl ⟨t, rfl⟩
  | fault f => cases f
  | refused r =>
    obtain ⟨w, rfl⟩ := step_refused hs
    obtain ⟨rest, hissued, hw⟩ := decode_illegalOp_splits (step_illegalOp_iff.1 hs)
    exact .inr ⟨w, rest, hissued, hw, rfl⟩

/-- Settles O31: a held instruction is a push that does not fit; after DEC.RESET the push needs room for itself alone. -/
theorem onlyAnOverfullPushIsHeld : Obligations.OnlyAnOverfullPushIsHeld := by
  refine ⟨fun i s t why h hheld => ?_, fun s d hd => ?_⟩
  · obtain ⟨d, rfl⟩ := exec_held h hheld
    obtain ⟨hfull, hbuf, hcrc⟩ := exec_decPush_of_held h hheld
    obtain ⟨cap, hcap, hlt⟩ := not_fits_iff.1 hfull
    exact ⟨d, cap, rfl, hcap, hlt, hbuf, hcrc⟩
  · have hfits : State.Fits { s with buf := [], results := s.results ++ [.completed] } d.length :=
      fun cap hcap => by simpa using hd cap hcap
    simp [execAll, exec_decReset, exec_decPush hfits]

end Sys2Proof

/-! What reset leaves, the wait for the host, and the header that no finite `buf` can complete
(70_reset_and_hazards.md R230 to R232, R244). -/

namespace Sys2Proof.Machine

/-- The block waits while no whole operation is issued (R232; log entry 4). -/
theorem step_of_incomplete {s : State} (h : decode s.issued = .incomplete) : step s = .next s := by
  rw [step, fetch, h]

/-- Where no verified frame is at the front, every command row does nothing (log entry 8). -/
theorem exec_commandRow_of_no_frame {i : Instr} {s : State} (hi : isOperation i = false)
    (h : ¬ FrameAtFront s.build.magic s.buf) : exec i s = .next s := by
  have row (code : Byte) (cmd : Command) : s.commandRow code cmd = s :=
    State.commandRow_of_no_frame (fun hf => h hf.1) cmd
  cases i with
  | crcInit | crcUpdate _ | crcFinal | crcBlock _ | encFrame _ _ _ | decPush _ | decStep | decReset => cases hi
  | frameStartUpgrade | frameTransferChunk | frameEndUpgrade | frameAck | frameNack => exact congrArg _ (row _ _)
  | frameUnknown c =>
    have hrow : rowUnknown c s = s := by rw [rowUnknown, row, ite_self]
    exact congrArg _ hrow

/-- The frame of an oversize header is never complete: it is longer than `buf` can be. -/
theorem State.Deadlocked.residueFrame {s : State} (h : s.Deadlocked) : ResidueFrame s.build.magic s.buf := by
  obtain ⟨hmagic, hheader, cap, -, hle, hlt⟩ := h
  exact ⟨hmagic, hheader, hle.trans_lt hlt⟩

theorem State.Deadlocked.judge {s : State} (h : s.Deadlocked) : judge s.build.magic s.buf = .wait :=
  (judge_wait_iff _ _).2 (.inr (.inr h.residueFrame))

theorem State.Deadlocked.no_frame {s : State} (h : s.Deadlocked) : ¬ FrameAtFront s.build.magic s.buf :=
  fun hf => by simpa [hf.judge] using h.judge

theorem State.Deadlocked.withinCap {s : State} (h : s.Deadlocked) : s.withinCap = true := by
  obtain ⟨-, -, cap, hcap, hle, -⟩ := h
  simpa [State.withinCap, hcap] using hle

/-- Bytes that arrive behind an oversize header leave it as it is. -/
theorem State.Deadlocked.of_prefix {s t : State} (h : s.Deadlocked) (hbuild : t.build = s.build)
    (hprefix : s.buf <+: t.buf) (ht : t.withinCap = true) : t.Deadlocked := by
  obtain ⟨hmagic, hheader, cap, hcap, -, hlt⟩ := h
  obtain ⟨d, hbuf⟩ := hprefix
  have hcap' : t.build.bufCap = some cap := hbuild ▸ hcap
  refine ⟨?_, ?_, cap, hcap', (State.withinCap_iff t).1 ht cap hcap', ?_⟩
  · rwa [← hbuf, hbuild, List.take_append_of_le_length (by omega)]
  · rw [← hbuf, List.length_append]
    omega
  · rwa [← hbuf, rdLe32_append_left (by omega)]

/-- Behind an oversize header every instruction but DEC.RESET removes no byte and returns no frame. -/
theorem State.Deadlocked.exec_next {i : Instr} {s t : State} (hs : s.Deadlocked) (hi : i ≠ .decReset)
    (h : exec i s = .next t) : s.buf <+: t.buf ∧ ∀ f, t.results ≠ s.results ++ [.frame f] := by
  cases i with
  | crcInit | crcUpdate _ | crcFinal | crcBlock _ =>
    cases h
    exact ⟨List.prefix_rfl, by simp⟩
  | encFrame cmd id payload =>
    obtain rfl := execEncFrame_next h
    exact ⟨List.prefix_rfl, by simp⟩
  | decPush d =>
    obtain rfl | rfl := execDecPush_next_cases h
    · exact ⟨List.prefix_append _ _, by simp⟩
    · exact ⟨List.prefix_rfl, by simp⟩
  | decStep =>
    cases (exec_decStep_of_wait hs.judge).symm.trans h
    exact ⟨List.prefix_rfl, by simp⟩
  | decReset => exact absurd rfl hi
  | frameStartUpgrade | frameTransferChunk | frameEndUpgrade | frameAck | frameNack | frameUnknown _ =>
    cases (exec_commandRow_of_no_frame rfl hs.no_frame).symm.trans h
    exact ⟨List.prefix_rfl, by simp⟩

end Sys2Proof.Machine

namespace Sys2Proof

open Sys2Proof.Machine

/-- Settles O48: the header stays, `buf` stays within its capacity, and so the frame stays incomplete; DEC.RESET empties
`buf`, and no header is left. -/
theorem oversizeHeaderDeadlocksUntilReset : Obligations.OversizeHeaderDeadlocksUntilReset := by
  refine ⟨fun i s t hs hi h => ?_, fun s _ => ⟨_, exec_decReset s, fun ht => ?_⟩⟩
  · obtain ⟨hprefix, hno⟩ := hs.exec_next hi h
    exact ⟨hs.of_prefix (exec_build h) hprefix (exec_withinCap hs.withinCap h), hno⟩
  · obtain ⟨-, hheader, -⟩ := ht
    simp at hheader

/-- Settles O1, field by field; `State.reset` is the new instance of `Config.build`. -/
theorem resetGivesTheStatedState : Obligations.ResetGivesTheStatedState :=
  ⟨fun b => ⟨State.resetOf_crcState b, State.resetOf_buf b, State.resetOf_build b⟩,
    State.resetOf_crcState Config.build, State.resetOf_buf Config.build⟩

/-- Settles O2: DEC.RESET writes `buf` and CRC.INIT writes `crc_state`, each its reset value. -/
theorem resetAndInitEqualAReset : Obligations.ResetAndInitEqualAReset := by
  intro s
  simp [execAll, exec_decReset, exec_crcInit, crcInitValue, State.resetOf]

/-- Settles O6: no bytes at all are no whole operation. -/
theorem stepWaitsForAWholeOperation : Obligations.StepWaitsForAWholeOperation := by
  refine ⟨fun s hs => step_of_incomplete ?_, fun s => step_of_incomplete⟩
  rw [hs]
  rfl

end Sys2Proof
